-- ==== Sys2Proof/Word.lean ====
section
/-! DEFINITION. The one data width of the machine (00_scope.md R5, R6): every value the core stores or moves
is an unsigned 8-bit byte, except the program counter, which is a natural number (10_state.md R14). -/

namespace Sys2Proof

/-- A byte: an unsigned integer in `[0, 255]`, bit 7 the most significant (R6). -/
abbrev Byte := BitVec 8

end Sys2Proof
end

