-- ==== Sys2Proof/Config.lean ====
section
/-! DEFINITION. What is fixed for a machine before it is constructed: the operation identifiers (00_scope.md
R9), the parameters `MEM_SIZE`, `LT` and `DIAG_STREAM` (R5), and the one value the spec leaves free, the
text of a diagnostic (93_implementation_defined.md U9). -/

namespace Sys2Proof

/-- The operations the opcode table maps to (30_encoding.md R52, R53). -/
inductive Operation where
  | ldi
  | prn
  | mul
  | hlt
  deriving DecidableEq, Repr

/-- An operation identifier as the ALU can be handed one (00_scope.md R9, 42_alu.md R90): one the opcode table
maps to, or ADD, which no opcode byte maps to (R93). -/
inductive OpId where
  | add
  | decoded (o : Operation)
  deriving DecidableEq, Repr

/-- Where a console shows diagnostics (00_scope.md R5, `DIAG_STREAM`). -/
inductive DiagStream where
  | out
  | err
  deriving DecidableEq, Repr

/-- The least admitted number of memory cells (00_scope.md R5; 90_conflicts.md C1). -/
def Config.minMemSize : Nat := 256

/-- The parameters fixed before construction (00_scope.md R5, 10_state.md R26). -/
structure Config.Params where
  /-- `MEM_SIZE`, the number of memory cells. -/
  memSize : Nat
  /-- `LT`, the line terminator the console appends to a printed value. -/
  lineTerminator : List Char
  /-- `DIAG_STREAM`. -/
  diagStream : DiagStream
  deriving DecidableEq, Repr

/-- The values R5 admits: `MEM_SIZE >= 256` and a line terminator that is one. -/
abbrev Config.Params.wf (p : Config.Params) : Prop :=
  Config.minMemSize ≤ p.memSize ∧ p.lineTerminator ≠ []

/-- The default parameters: 256 cells (D1) and LF (D11). `DIAG_STREAM` has no default in the spec: `err` is a
DESIGN CHOICE (log entry 2); no rule of the core depends on it (D10). -/
def Config.defaults : Config.Params :=
  { memSize := 256, lineTerminator := ['\n'], diagStream := .err }

/-- FREE VALUE (log entry 3): the text a console shows for the diagnostic that stands at position `k` of the
event stream and carries the byte `b`. The spec gives no text (R21, U9). -/
opaque Config.diagText (k : Nat) (b : Byte) : List Char

end Sys2Proof
end

