-- ==== Sys2Proof/Syntax.lean ====
section
/-! DEFINITION. The instructions: one constructor per row of spec/opcode_table.json. An operand is the unmodified
byte of its cell (30_encoding.md R51), so a register index is a whole byte and may be out of range. -/

namespace Sys2Proof

inductive Instr where
  /-- LDI `Rr,imm`: format RI (41_register_ops.md R85). -/
  | ldi (r imm : Byte)
  /-- PRN `Rr`: format R (41_register_ops.md R86). -/
  | prn (r : Byte)
  /-- MUL `Ra,Rb`: format RR (42_alu.md R92). -/
  | mul (a b : Byte)
  /-- HLT: format Z (43_halt.md R100). -/
  | hlt
  deriving DecidableEq, Repr

/-- The operation an instruction was decoded to. -/
def Instr.operation : Instr → Operation
  | .ldi _ _ => .ldi
  | .prn _ => .prn
  | .mul _ _ => .mul
  | .hlt => .hlt

end Sys2Proof
end

