-- ==== Sys2Proof/WellFormed.lean ====
section
/-! DEFINITION. The legal operand ranges (30_encoding.md R51, R57, and the "legal" entries of
spec/opcode_table.json). An instruction outside them still decodes and faults when executed (R53). -/

namespace Sys2Proof

/-- A byte that names a register: `0..7` name `x[0]..x[7]` (R51). -/
def validIndex (r : Byte) : Bool := decide (r.toNat ≤ 7)

/-- Every register index of the instruction names a register; an immediate is any byte. -/
def Instr.wellFormed : Instr → Bool
  | .ldi r _ => validIndex r
  | .prn r => validIndex r
  | .mul a b => validIndex a && validIndex b
  | .hlt => true

end Sys2Proof
end

