-- ==== Sys2Proof/Decode.lean ====
section
/-! DEFINITION. Decoding (30_encoding.md R50 to R56), total on any bytes, and the encoder written from the same
opcode bytes. -/

namespace Sys2Proof

/-- The opcode byte of each operation (R52; matched whole, mask `0xFF`). -/
def opcodeByte : Operation → Byte
  | .ldi => 0x82
  | .prn => 0x47
  | .mul => 0xA2
  | .hlt => 0x01

/-- The opcode table: exactly four entries, constant for the run (R52, 10_state.md R26). -/
def opcodeTable : List (Byte × Operation) :=
  [Operation.ldi, .prn, .mul, .hlt].map fun o => (opcodeByte o, o)

/-- `decode(b)` of R53: the lookup of an opcode byte; none for the 252 unknown ones (R54). -/
def decodeOp (b : Byte) : Option Operation :=
  (opcodeTable.find? fun row => row.1 == b).map (·.2)

/-- The instruction's length in bytes, from the operation found and from nothing else (R56). -/
def Operation.length : Operation → Nat
  | .ldi => 3
  | .prn => 2
  | .mul => 3
  | .hlt => 1

/-- What the bytes at an address denote: an instruction, or an unknown opcode byte (R54). -/
inductive Decoded where
  | instr (i : Instr)
  | unknown (op : Byte)
  deriving DecidableEq, Repr

/-- Decode from a reader of the instruction's bytes: `rd 0` is the opcode, `rd 1` and `rd 2` the operands. The
bytes are read in ascending order, and only those the decoded operation has (40_run_loop.md R72, R73;
20_memory.md R45); a reader's error ends the decoding with that error. -/
def decodeFrom {ε : Type} (rd : Nat → Except ε Byte) : Except ε Decoded := do
  let op ← rd 0
  match decodeOp op with
  | none => pure (.unknown op)
  | some .ldi => do
    let r ← rd 1
    let imm ← rd 2
    pure (.instr (.ldi r imm))
  | some .prn => do
    let r ← rd 1
    pure (.instr (.prn r))
  | some .mul => do
    let a ← rd 1
    let b ← rd 2
    pure (.instr (.mul a b))
  | some .hlt => pure (.instr .hlt)

/-- Why a byte list denotes nothing: the byte at this offset is not there. -/
inductive DecodeError where
  | missingByte (offset : Nat)
  deriving DecidableEq, Repr

/-- The byte of a list at an offset, or the name of what is missing. -/
def byteAt (bytes : List Byte) (k : Nat) : Except DecodeError Byte :=
  match bytes[k]? with
  | some b => .ok b
  | none => .error (.missingByte k)

/-- Decode the instruction or unknown byte at the head of a byte list. -/
def decode (bytes : List Byte) : Except DecodeError Decoded := decodeFrom (byteAt bytes)

/-- The operand bytes of an instruction, in ascending address order (R50). -/
def operandBytes : Instr → List Byte
  | .ldi r imm => [r, imm]
  | .prn r => [r]
  | .mul a b => [a, b]
  | .hlt => []

/-- The bytes of an instruction, opcode first (R50, R52, 20_memory.md R33). -/
def encode (i : Instr) : List Byte := opcodeByte i.operation :: operandBytes i

/-- The first three bytes of an instruction given as a number whose bit 0 is bit 0 of the first byte; every bit
from `nbits` up is 0. Three bytes is the longest instruction (R50). -/
def bytesOfWord (nbits w : Nat) : List Byte :=
  let v := w % 2 ^ nbits
  [BitVec.ofNat 8 v, BitVec.ofNat 8 (v / 256), BitVec.ofNat 8 (v / 65536)]

/-- The instruction the decoder reads from such a number; none for an unknown opcode byte. -/
def decodeTableWord (nbits w : Nat) : Option Instr :=
  match decode (bytesOfWord nbits w) with
  | .ok (.instr i) => some i
  | _ => none

/-- The bytes of an instruction as one such number. -/
def wordOf (bytes : List Byte) : Nat :=
  bytes.foldr (fun b w => b.toNat + 256 * w) 0

end Sys2Proof
end

