-- ==== Sys2Proof/Machine/State.lean ====
section
/-! DEFINITION. The whole state of the core (10_state.md, 20_memory.md R30), its reset (R27), and the reasons a
step can stop. The ISA's own faults are not among those reasons: they are an ordinary next state, with `run`
FAULTED (60_exceptions.md R109). -/

namespace Sys2Proof.Machine

/-- Memory: the cells that do not hold the reset value 0, by strictly rising address. `Memory.wf` in Ops.lean is
that canonical form. -/
abbrev Memory := List Host.Cell

/-- The run state (10_state.md R17). -/
inductive RunState where
  | running
  | halted
  | faulted
  deriving DecidableEq, Repr

/-- An output event of the core (10_state.md R20). -/
inductive Event where
  /-- `Print(v)`, emitted by PRN. -/
  | print (v : Byte)
  /-- `Diag(b)`, emitted when the unknown opcode byte `b` is skipped. -/
  | diag (b : Byte)
  deriving DecidableEq, Repr

/-- The cause of a fatal fault together with its info (10_state.md R18, 60_exceptions.md R106, R107). -/
inductive FaultCause where
  /-- `OutOfBounds(Mem, addr)`. -/
  | outOfBoundsMem (addr : Nat)
  /-- `OutOfBounds(Reg, i)`; the index is the whole operand byte. -/
  | outOfBoundsReg (index : Byte)
  /-- `UnsupportedOperation(op)`. -/
  | unsupportedOperation (op : OpId)
  deriving DecidableEq, Repr

/-- The fault record `(cause, info, at)` (10_state.md R18). -/
structure FaultRecord where
  cause : FaultCause
  /-- `at`: the PC of the instruction that faulted. -/
  atPc : Nat
  deriving DecidableEq, Repr

/-- The state of the core. -/
structure State where
  /-- `MEM_SIZE`, `LT`, `DIAG_STREAM`: fixed before construction, never written by a step (10_state.md R26). -/
  params : Config.Params
  /-- The Register File `x[0]..x[7]` (R10). -/
  regs : Vector Byte 8
  /-- The program counter, a natural number (R14). -/
  pc : Nat
  /-- The run state (R17). -/
  run : RunState
  /-- The fault record; none until a fault is raised (R18). -/
  fault : Option FaultRecord
  /-- Memory (20_memory.md R30). -/
  mem : Memory
  /-- The event stream, oldest first (R20). -/
  events : List Event
  deriving DecidableEq, Repr

/-- Why the machine has no step. Raised by `step` alone. -/
inductive Fault where
  /-- The run state is HALTED, which is terminal: no step exists (10_state.md R17, D19). Safe: nothing is claimed
  of a machine that has stopped. -/
  | stepAfterHalt
  /-- The run state is FAULTED, which is terminal: no step exists (10_state.md R17, D19). Safe, as above. -/
  | stepAfterFault
  deriving DecidableEq, Repr

/-- What the model declines to run. -/
inductive Refusal where
  /-- An instruction without a meaning, rejected by name in `exec`. No arm uses it. Safe. -/
  | notModelled (mnemonic : String)
  /-- Raised by `launch`: the parameters are not admitted (00_scope.md R5). Safe: no machine is built. -/
  | parametersNotAdmitted
  /-- Raised by `loadProgram`: the program is longer than Memory (20_memory.md R36, D15). Safe: not a launch. -/
  | programTooLong
  /-- Raised by `launchImage`: the program file is missing (60_exceptions.md R114). Safe: not a launch. -/
  | programFileMissing
  /-- Raised by `launchImage`: a line of the image is not a byte (30_encoding.md R62, R114). Safe: not a launch. -/
  | malformedImage
  deriving DecidableEq, Repr

/-- The state after construction with the parameters `p`: every register, the PC and every memory cell 0, RUNNING,
no fault, no event (10_state.md R27, 70_reset_and_hazards.md R130). -/
def State.resetWith (p : Config.Params) : State :=
  { params := p
    regs := Vector.replicate 8 0
    pc := 0
    run := .running
    fault := none
    mem := []
    events := [] }

/-- The state after construction with the default parameters. -/
def State.reset : State := State.resetWith Config.defaults

end Sys2Proof.Machine
end

