-- ==== Sys2Proof/Machine/Ops.lean ====
section
/-! DEFINITION. The named operations over memory, registers, the PC, the event stream and the run state, the
entry into a fault, and the gate of the run loop. An operation that can fault answers `Except FaultCause`; since the cause
carries no state, a fault leaves nothing half done (60_exceptions.md R109, R115). -/

namespace Sys2Proof.Machine

/-! ## Memory as data -/

/-- What an unlisted cell holds: the reset value 0 (10_state.md R27). -/
def Memory.unlisted : Byte := 0

/-- The canonical form: addresses strictly rising, no cell that holds what an unlisted one holds. -/
abbrev Memory.wf (m : Memory) : Prop :=
  m.Pairwise (fun c d => c.1 < d.1) ∧ ∀ c ∈ m, c.2 ≠ Memory.unlisted

/-- The byte at an address. -/
def Memory.read : Memory → Nat → Byte
  | [], _ => Memory.unlisted
  | (a, v) :: m, addr => if a = addr then v else Memory.read m addr

/-- Put a byte at the head of a memory whose addresses are all higher, unless it is the unlisted value. -/
def Memory.cons (addr : Nat) (v : Byte) (m : Memory) : Memory :=
  if v = Memory.unlisted then m else (addr, v) :: m

/-- Write a byte, keeping the canonical form. -/
def Memory.write : Memory → Nat → Byte → Memory
  | [], addr, v => Memory.cons addr v []
  | (a, w) :: m, addr, v =>
    if addr < a then Memory.cons addr v ((a, w) :: m)
    else if addr = a then Memory.cons addr v m
    else (a, w) :: Memory.write m addr v

/-! ## Memory accesses -/

/-- `MemRead(addr, 1)` (20_memory.md R32, 10_state.md R22). -/
def memRead (addr : Nat) (s : State) : Except FaultCause Byte :=
  if s.params.memSize ≤ addr then .error (.outOfBoundsMem addr) else .ok (Memory.read s.mem addr)

/-- `MemWrite(addr, 1, v)`, used by the loader alone (10_state.md R23, 20_memory.md R36). -/
def memWrite (addr : Nat) (v : Byte) (s : State) : Except FaultCause State :=
  if s.params.memSize ≤ addr then .error (.outOfBoundsMem addr)
  else .ok { s with mem := Memory.write s.mem addr v }

/-- Store bytes at ascending addresses from `addr` by `memWrite`; a byte whose cell does not exist is dropped. -/
def storeBytes (addr : Nat) : List Byte → State → State
  | [], s => s
  | v :: vs, s =>
    match memWrite addr v s with
    | .ok t => storeBytes (addr + 1) vs t
    | .error _ => storeBytes (addr + 1) vs s

/-! ## Registers -/

/-- `RegRead(i)` (10_state.md R12): the whole byte is the index, never masked. -/
def regRead (i : Byte) (s : State) : Except FaultCause Byte :=
  if h : i.toNat < 8 then .ok s.regs[i.toNat] else .error (.outOfBoundsReg i)

/-- `RegWrite(i, v)` (10_state.md R12). -/
def regWrite (i v : Byte) (s : State) : Except FaultCause State :=
  if h : i.toNat < 8 then .ok { s with regs := s.regs.set i.toNat v } else .error (.outOfBoundsReg i)

/-! ## Program counter, events, run state -/

/-- `pc <- pc + n`, on natural numbers, without wrap (10_state.md R15, R16). -/
def advance (n : Nat) (s : State) : State := { s with pc := s.pc + n }

/-- `emit e`: append an event (10_state.md R20). -/
def emit (e : Event) (s : State) : State := { s with events := s.events ++ [e] }

/-- `run <- HALTED`, the PC not moved (43_halt.md R100). -/
def halt (s : State) : State := { s with run := .halted }

/-- The unknown-opcode step: `emit Diag(op); pc <- pc + 1` (40_run_loop.md R74, 60_exceptions.md R110). -/
def skipUnknown (op : Byte) (s : State) : State := advance 1 (emit (.diag op) s)

/-! ## Taking a fault -/

/-- `raise F(info)`: `run <- FAULTED; fault <- (F, info, pc)`, nothing else (60_exceptions.md R109). There is no
return from it (R111). -/
def raise (c : FaultCause) (s : State) : State :=
  { s with run := .faulted, fault := some { cause := c, atPc := s.pc } }

/-- End an instruction that started in `s`: its own next state, or `s` with the fault it raised. -/
def commit (s : State) : Except FaultCause State → Host.Outcome State Fault Refusal
  | .ok t => .next t
  | .error c => .next (raise c s)

/-- The numeric cause codes (60_exceptions.md R112, D13); only the names are normative. -/
def FaultCause.code : FaultCause → Nat
  | .outOfBoundsMem _ => 1
  | .outOfBoundsReg _ => 2
  | .unsupportedOperation _ => 3

/-- The code of a state: 0 when `run != FAULTED` (R112). -/
def causeCode (s : State) : Nat :=
  match s.run, s.fault with
  | .faulted, some f => f.cause.code
  | _, _ => 0

/-! ## The gate of the run loop -/

/-- Why no step exists in a state, if none does: HALTED and FAULTED are terminal (10_state.md R17, D19). -/
def noStep (s : State) : Option Fault :=
  match s.run with
  | .running => none
  | .halted => some .stepAfterHalt
  | .faulted => some .stepAfterFault

end Sys2Proof.Machine
end

