-- ==== Sys2Proof/Machine/Operands.lean ====
section
/-! DEFINITION. The operand forms, which are all bytes of the instruction itself (20_memory.md R45): there is no
memory operand, no base register and no extension. A register operand is then `regRead` or `regWrite` of the
whole byte (30_encoding.md R51), an immediate is the byte. -/

namespace Sys2Proof.Machine

/-- The instruction's byte at offset `k`, read at address `pc + k`, the PC not moving (10_state.md R15). -/
def instrByte (s : State) (k : Nat) : Except FaultCause Byte := memRead (s.pc + k) s

/-- Fetch the opcode at the PC, decode it, and read the operand bytes the operation has, in that order (40_run_loop.md
R71 to R73, 60_exceptions.md R108 items 1 to 4). -/
def fetch (s : State) : Except FaultCause Decoded := decodeFrom (instrByte s)

end Sys2Proof.Machine
end

