-- ==== Sys2Proof/Machine/Flags.lean ====
section
/-! DEFINITION. The machine has no flag and no condition code, and overflow leaves no trace beyond the wrapped
result (10_state.md R19, 42_alu.md R91). What stands here is that law: the exact result as a natural number,
and its reduction modulo 256. -/

namespace Sys2Proof.Machine

/-- The low 8 bits of an exact result (R91, D3). -/
def narrow (exact : Nat) : Byte := BitVec.ofNat 8 exact

/-- The result of an ALU operation on two operand values (R90, R91). -/
def aluResult (op : OpId) (va vb : Byte) : Except FaultCause Byte :=
  match op with
  | .add => .ok (narrow (va.toNat + vb.toNat))
  | .decoded .mul => .ok (narrow (va.toNat * vb.toNat))
  | .decoded .ldi => .error (.unsupportedOperation (.decoded .ldi))
  | .decoded .prn => .error (.unsupportedOperation (.decoded .prn))
  | .decoded .hlt => .error (.unsupportedOperation (.decoded .hlt))

end Sys2Proof.Machine
end

