-- ==== Sys2Proof/Machine/AluOps.lean ====
section
/-! DEFINITION. The ALU (42_alu.md R90), its ADD operation, which no opcode reaches (R93), and MUL (R92). -/

namespace Sys2Proof.Machine

/-- Which operation identifiers the dispatcher hands to the ALU (40_run_loop.md R75). -/
def routedToAlu : OpId → Bool
  | .add => true
  | .decoded .mul => true
  | .decoded .ldi => false
  | .decoded .prn => false
  | .decoded .hlt => false

/-- `ALU.apply(op, a, b)` (R90): both operands are read, `a` first, before the result is written to `x[a]`. -/
def aluApply (op : OpId) (a b : Byte) (s : State) : Except FaultCause State := do
  let va ← regRead a s
  let vb ← regRead b s
  let res ← aluResult op va vb
  regWrite a res s

/-- MUL `Ra,Rb`: `ALU.apply(MUL, a, b); pc <- pc + 3` (R92). -/
def execMul (a b : Byte) (s : State) : Host.Outcome State Fault Refusal :=
  commit s do
    let t ← aluApply (.decoded .mul) a b s
    pure (advance 3 t)

end Sys2Proof.Machine
end

