-- ==== Sys2Proof/Machine/Halt.lean ====
section
/-! DEFINITION. The system instruction: HLT (43_halt.md R100). There is no other (R101). -/

namespace Sys2Proof.Machine

/-- HLT: `run <- HALTED`, pc unchanged (R100). -/
def execHlt (s : State) : Host.Outcome State Fault Refusal := .next (halt s)

end Sys2Proof.Machine
end

