-- ==== Sys2Proof/Machine/RegisterOps.lean ====
section
/-! DEFINITION. Register load and print: LDI (41_register_ops.md R85) and PRN (R86). The operand bytes have been
read by `fetch`; what is left of the step is here. -/

namespace Sys2Proof.Machine

/-- LDI `Rr,imm`: `x[r] <- imm; pc <- pc + 3` (R85). -/
def execLdi (r imm : Byte) (s : State) : Host.Outcome State Fault Refusal :=
  commit s do
    let t ← regWrite r imm s
    pure (advance 3 t)

/-- PRN `Rr`: `emit Print(x[r]); pc <- pc + 2` (R86). -/
def execPrn (r : Byte) (s : State) : Host.Outcome State Fault Refusal :=
  commit s do
    let v ← regRead r s
    pure (advance 2 (emit (.print v) s))

end Sys2Proof.Machine
end

