-- ==== Sys2Proof/Machine/Step.lean ====
section
/-! DEFINITION. One pass of the run loop (00_scope.md R8, 40_run_loop.md R70 to R74). -/

namespace Sys2Proof.Machine

/-- The rest of a step after its fetch: a fault, a skipped byte, or an executed instruction (R73). -/
def afterFetch (s : State) : Except FaultCause Decoded → Host.Outcome State Fault Refusal
  | .error c => .next (raise c s)
  | .ok (.unknown op) => .next (skipUnknown op s)
  | .ok (.instr i) => exec i s

/-- One step: none in a terminal state; otherwise fetch, decode and execute. -/
def step (s : State) : Host.Outcome State Fault Refusal :=
  match noStep s with
  | some f => .fault f
  | none => afterFetch s (fetch s)

/-- `s` with the bytes of a table word stored at its PC (log entry 6). -/
def State.withFetchWord (s : State) (nbits w : Nat) : State :=
  storeBytes s.pc (bytesOfWord nbits w) s

end Sys2Proof.Machine
end

