-- ==== Sys2Proof/Machine/Console.lean ====
section
/-! DEFINITION. What a console shows for the event stream (10_state.md R21, 00_scope.md R5). The core never reads
any of this. -/

namespace Sys2Proof.Machine

/-- A decimal digit. -/
def digit (d : Nat) : Char := Char.ofNat (48 + d)

/-- The shortest decimal numeral of a byte (R21, D11). -/
def decimalNumeral (v : Byte) : List Char :=
  let n := v.toNat
  if n < 10 then [digit n]
  else if n < 100 then [digit (n / 10), digit (n % 10)]
  else [digit (n / 100), digit (n / 10 % 10), digit (n % 10)]

/-- The line PRN puts on standard output. -/
def printedLine (p : Config.Params) (v : Byte) : List Char := decimalNumeral v ++ p.lineTerminator

/-- Standard output for events that start at position `k` of the stream. -/
def stdoutFrom (p : Config.Params) : Nat → List Event → List Char
  | _, [] => []
  | k, .print v :: es => printedLine p v ++ stdoutFrom p (k + 1) es
  | k, .diag b :: es =>
    match p.diagStream with
    | .out => Config.diagText k b ++ stdoutFrom p (k + 1) es
    | .err => stdoutFrom p (k + 1) es

/-- The error stream for events that start at position `k` of the stream. -/
def stderrFrom (p : Config.Params) : Nat → List Event → List Char
  | _, [] => []
  | k, .print _ :: es => stderrFrom p (k + 1) es
  | k, .diag b :: es =>
    match p.diagStream with
    | .out => stderrFrom p (k + 1) es
    | .err => Config.diagText k b ++ stderrFrom p (k + 1) es

/-- The standard output of a state's events. -/
def stdout (s : State) : List Char := stdoutFrom s.params 0 s.events

/-- The error stream of a state's events. -/
def stderr (s : State) : List Char := stderrFrom s.params 0 s.events

end Sys2Proof.Machine
end

