-- ==== Sys2Proof/Machine/Assembler.lean ====
section
/-! DEFINITION. The canonical assembler lines (30_encoding.md R57), the bytes they emit, and decoding a byte
sequence from its first byte forward (R59). Outside the core: no step uses it (log entry 12). -/

namespace Sys2Proof.Machine

/-- One line: an instruction, or the spec's own `.byte v` directive. -/
inductive AsmLine where
  | instr (i : Instr)
  | byte (v : Byte)
  deriving DecidableEq, Repr

/-- The operand ranges of R57: a register operand is `R0` to `R7`. -/
def AsmLine.legal : AsmLine → Bool
  | .instr i => i.wellFormed
  | .byte _ => true

/-- The bytes a line emits, in ascending address order. -/
def AsmLine.bytes : AsmLine → List Byte
  | .instr i => encode i
  | .byte v => [v]

/-- The bytes of a program. -/
def assemble (lines : List AsmLine) : List Byte := lines.flatMap AsmLine.bytes

/-- A register operand as R57 writes it: `R` and its decimal index. -/
def registerText (r : Byte) : List Char := 'R' :: decimalNumeral r

/-- The canonical text of a line, immediates in decimal (R57). -/
def AsmLine.text : AsmLine → List Char
  | .instr (.ldi r imm) => ['L', 'D', 'I', ' '] ++ registerText r ++ ',' :: decimalNumeral imm
  | .instr (.prn r) => ['P', 'R', 'N', ' '] ++ registerText r
  | .instr (.mul a b) => ['M', 'U', 'L', ' '] ++ registerText a ++ ',' :: registerText b
  | .instr .hlt => ['H', 'L', 'T']
  | .byte v => ['.', 'b', 'y', 't', 'e', ' '] ++ decimalNumeral v

/-- At most `n` lines of the sequence the bytes denote, decoded from the first byte forward: an instruction takes its
length, an unknown byte takes 1 (R56, R59). It stops where an operand byte is missing. -/
def disassemble : Nat → List Byte → List AsmLine
  | 0, _ => []
  | n + 1, bytes =>
    match decode bytes with
    | .ok (.instr i) => .instr i :: disassemble n (bytes.drop i.operation.length)
    | .ok (.unknown b) => .byte b :: disassemble n (bytes.drop 1)
    | .error _ => []

end Sys2Proof.Machine
end

