-- ==== Sys2Proof/Machine/Loader.lean ====
section
/-! DEFINITION. How a program comes into Memory: construct, load, run (70_reset_and_hazards.md R133). The loader is
outside the core; its contract toward the core is 20_memory.md R36, and the text format it reads is
30_encoding.md R62 (log entry 11 for what that rule leaves open). -/

namespace Sys2Proof.Machine

/-- `MemWrite(k, 1, b[k])` for each byte of the program, which must fit (R36, D15). -/
def loadProgram (prog : List Byte) (s : State) : Host.Outcome State Fault Refusal :=
  if s.params.memSize < prog.length then .refused .programTooLong else .next (storeBytes 0 prog s)

/-- Construct the core with admitted parameters, then load (R133). -/
def launch (p : Config.Params) (prog : List Byte) : Host.Outcome State Fault Refusal :=
  if p.wf then loadProgram prog (State.resetWith p) else .refused .parametersNotAdmitted

/-! ## The program image (R62) -/

/-- White space inside an image line (DESIGN CHOICE, log entry 11). -/
def isBlank (c : Char) : Bool := c == ' ' || c == '\t' || c == '\r'

/-- A line without its comment and without white space at its ends. -/
def lineContent (line : List Char) : List Char :=
  (((line.takeWhile (· != '#')).dropWhile isBlank).reverse.dropWhile isBlank).reverse

/-- The value of a binary literal read most significant bit first; none if a character is not a bit. -/
def binaryValue : Nat → List Char → Option Nat
  | acc, [] => some acc
  | acc, c :: cs =>
    if c = '0' then binaryValue (2 * acc) cs
    else if c = '1' then binaryValue (2 * acc + 1) cs
    else none

/-- What an image line denotes. -/
inductive ImageLine where
  | skipped
  | byte (v : Byte)
  | malformed
  deriving DecidableEq, Repr

/-- One line of the image: skipped, a byte in `[0, 255]`, or malformed. -/
def parseLine (line : List Char) : ImageLine :=
  match lineContent line with
  | [] => .skipped
  | c :: cs =>
    match binaryValue 0 (c :: cs) with
    | some n => if n ≤ 255 then .byte (BitVec.ofNat 8 n) else .malformed
    | none => .malformed

/-- The bytes of an image, in line order; none when a line is malformed. -/
def parseImage : List (List Char) → Option (List Byte)
  | [] => some []
  | line :: rest =>
    match parseLine line with
    | .skipped => parseImage rest
    | .byte v => (parseImage rest).map (v :: ·)
    | .malformed => none

/-- Launch from a program file given by its lines, or by nothing when it is missing (60_exceptions.md R114). -/
def launchImage (p : Config.Params) (file : Option (List (List Char))) :
    Host.Outcome State Fault Refusal :=
  match file with
  | none => .refused .programFileMissing
  | some lines =>
    match parseImage lines with
    | none => .refused .malformedImage
    | some prog => launch p prog

end Sys2Proof.Machine
end

