-- ==== Sys2Proof/Machine/Run.lean ====
section
/-! DEFINITION. The run loop around `step` (40_run_loop.md R70, R77, R78). -/

namespace Sys2Proof.Machine

/-- At most `n` steps, stopping at the first state that is not RUNNING. -/
def runFor : Nat → State → State
  | 0, s => s
  | n + 1, s =>
    match step s with
    | .next t => runFor n t
    | .fault _ => s
    | .refused _ => s

/-- `run_core` (R70): `while run = RUNNING do S <- step(S)`. The bound is R78's: a run from a state with
`pc <= MEM_SIZE` is over within `MEM_SIZE + 1` steps. -/
def runCore (s : State) : State := runFor (s.params.memSize + 1) s

/-- The run is over (R77). -/
def ended (s : State) : Bool := decide (s.run ≠ .running)

end Sys2Proof.Machine
end

