-- ==== Sys2Proof/Safety.lean ====
section
/-! DEFINITION. The terms claims are made in: what stays unchanged, which fault records can stand, the lines of a program image,
the invariant of the machine, and renaming registers. -/

namespace Sys2Proof.Machine

/-! ## Frames -/

/-- Every byte of memory reads the same, by the model's read of one byte, so what does not exist is the same too. -/
def SameMemory (s t : State) : Prop := ∀ addr, memRead addr t = memRead addr s

/-- Every register but the one the index byte `d` names reads the same. -/
def SameRegsExcept (d : Byte) (s t : State) : Prop := ∀ j : Byte, j ≠ d → regRead j t = regRead j s

/-- Every register reads the same. -/
def SameRegs (s t : State) : Prop := ∀ j : Byte, regRead j t = regRead j s

/-- The run state, the fault record and the parameters are the same. -/
def SameStatus (s t : State) : Prop := t.run = s.run ∧ t.fault = s.fault ∧ t.params = s.params

/-- A fault's whole effect on `s` (60_exceptions.md R109): FAULTED, the record, and everything else as it was. -/
def FaultedFrom (c : FaultCause) (s t : State) : Prop :=
  t.run = .faulted ∧ t.fault = some { cause := c, atPc := s.pc } ∧ t.pc = s.pc ∧ t.regs = s.regs ∧
    t.mem = s.mem ∧ t.events = s.events ∧ t.params = s.params

/-! ## The bytes a step depends on -/

/-- The operation whose opcode byte stands at the PC, if the PC is in Memory and the byte is known. -/
def opAtPc (s : State) : Option Operation :=
  match memRead s.pc s with
  | .ok b => decodeOp b
  | .error _ => none

/-- How many bytes from the PC the step may read (20_memory.md R45): the length of the instruction found there, and 1
for an unknown byte. -/
def bytesRead (s : State) : Nat :=
  match decodeOp (Memory.read s.mem s.pc) with
  | some op => op.length
  | none => 1

/-- The byte at an offset from the PC names no register. -/
def badIndexAt (s : State) (k : Nat) : Prop := 7 < (Memory.read s.mem (s.pc + k)).toNat

/-! ## The program image (30_encoding.md R62) -/

/-- The value of a text read as a base-2 numeral, most significant bit first. -/
def base2Value (text : List Char) : Nat := text.foldl (fun n c => 2 * n + (if c = '1' then 1 else 0)) 0

/-- A text with no blank at either end and no comment in it. -/
def isContent (text : List Char) : Prop :=
  (∀ c, text.head? = some c → isBlank c = false) ∧ (∀ c, text.getLast? = some c → isBlank c = false) ∧
    ∀ c ∈ text, c ≠ '#'

/-- What may stand after a line's content: nothing, or a comment. -/
def isTail (text : List Char) : Prop := text = [] ∨ ∃ comment, text = '#' :: comment

/-- The bytes an image line gives: one, or none. -/
def ImageLine.bytes : ImageLine → List Byte
  | .skipped => []
  | .byte v => [v]
  | .malformed => []

/-! ## The invariant -/

/-- A cause that a run can record in a state whose PC is that of the faulting instruction (60_exceptions.md R106, R107):
the address is exactly `MEM_SIZE` and at most two past the opcode, the index names no register, and an unsupported operation never
occurs. -/
def possibleCause (s : State) (atPc : Nat) : FaultCause → Prop
  | .outOfBoundsMem addr => addr = s.params.memSize ∧ s.params.memSize ≤ atPc + 2
  | .outOfBoundsReg i => 7 < i.toNat
  | .unsupportedOperation _ => False

/-- The machine's invariant. -/
structure MachineInv (s : State) : Prop where
  /-- The parameters are admitted (00_scope.md R5). -/
  params_wf : s.params.wf
  /-- `0 <= pc <= MEM_SIZE` (10_state.md R14). -/
  pc_le : s.pc ≤ s.params.memSize
  /-- Memory keeps its canonical form. -/
  mem_wf : Memory.wf s.mem
  /-- Memory lists no cell that does not exist (20_memory.md R30). -/
  mem_inside : ∀ c ∈ s.mem, c.1 < s.params.memSize
  /-- There is a fault record exactly in FAULTED (10_state.md R18). -/
  fault_iff : s.fault ≠ none ↔ s.run = .faulted
  /-- The record is that of the instruction at the PC (10_state.md R18, 60_exceptions.md R106). -/
  fault_at : ∀ f, s.fault = some f → f.atPc = s.pc ∧ possibleCause s f.atPc f.cause
  /-- HALTED stands at an HLT (40_run_loop.md R77). -/
  halted_at : s.run = .halted → memRead s.pc s = .ok 0x01

/-! ## Renaming registers (10_state.md R11) -/

/-- Rename the register a byte names; a byte that names none stays. -/
def renameIndex (π : Equiv.Perm (Fin 8)) (i : Byte) : Byte :=
  if h : i.toNat < 8 then BitVec.ofNat 8 (π ⟨i.toNat, h⟩).val else i

/-- Rename every register operand of an instruction. -/
def renameInstr (π : Equiv.Perm (Fin 8)) : Instr → Instr
  | .ldi r imm => .ldi (renameIndex π r) imm
  | .prn r => .prn (renameIndex π r)
  | .mul a b => .mul (renameIndex π a) (renameIndex π b)
  | .hlt => .hlt

/-- Move the contents of every register `j` to register `π j`. -/
def permuteRegs (π : Equiv.Perm (Fin 8)) (s : State) : State :=
  { s with regs := Vector.ofFn fun j => s.regs[(π.symm j).val] }

end Sys2Proof.Machine
end

