-- ==== Sys2Proof/Certificates/Slice0/Obligations.lean ====
section
/-! DEFINITION. The statements for the provers. Each docstring names the rules of spec/ it rests on. OBLIGATIONS.json
marks "stated" those that say a whole rule which the spec states without a mark of its own; a statement that also rests on
what the spec marks as its own decision (D<n> of 92_eei_decisions.md) or inference ("derived"), or on a log entry, is
"derived" there, and its docstring names the mark. -/

open Sys2Proof Sys2Proof.Machine

/-! ## Reset and launch -/

/-- R27: after construction every register reads 0, the PC is 0, the run state is RUNNING, no fault is recorded,
every memory cell is 0 and the event stream is empty, whatever the parameters. `State.reset` is that state at the
default parameters. The spec marks the fault row as its decision D6, the events row as its inference, and the default
parameters are its D1 and D11 and log entry 2. -/
def Obligations.ResetHoldsTheGivenValues : Prop :=
  (∀ p : Config.Params,
    (∀ i : Byte, i.toNat ≤ 7 → regRead i (State.resetWith p) = .ok 0) ∧
    (State.resetWith p).pc = 0 ∧
    (State.resetWith p).run = .running ∧
    (State.resetWith p).fault = none ∧
    (∀ addr, addr < p.memSize → memRead addr (State.resetWith p) = .ok 0) ∧
    (State.resetWith p).events = [] ∧
    (State.resetWith p).params = p) ∧
  State.reset = State.resetWith Config.defaults

/-- R36: a program that fits is stored byte by byte from address 0, the cells above it keep their reset value 0, and
nothing else differs from the reset state; a longer program is refused before the core starts, which is the spec's
decision D15. Parameters that R5 does not admit are refused whatever the program: a `MEM_SIZE` below 256 (D1), or an empty
text for the line terminator (log entry 2). -/
def Obligations.LaunchStoresTheProgramFromAddressZero : Prop :=
  ∀ (p : Config.Params) (prog : List Byte),
    (p.wf → prog.length ≤ p.memSize → ∃ s, launch p prog = .next s ∧
      (∀ k (h : k < prog.length), memRead k s = .ok prog[k]) ∧
      (∀ k, prog.length ≤ k → k < p.memSize → memRead k s = .ok 0) ∧
      SameRegs (State.resetWith p) s ∧ s.pc = 0 ∧ s.run = .running ∧ s.fault = none ∧ s.events = [] ∧
      s.params = p) ∧
    (p.wf → p.memSize < prog.length → launch p prog = .refused .programTooLong) ∧
    (p.memSize < 256 ∨ p.lineTerminator = [] → launch p prog = .refused .parametersNotAdmitted)

/-- R62, R114 (outside the core). The line that writes a byte as eight binary digits, alone, with a comment right behind it or
with a blank between, gives that byte. Of every line, whatever blanks stand around its content and whatever comment
behind it, this says which of the three kinds it is: skipped when the content is empty, a byte when it is made of bits
and its base-2 value is at most 255, and malformed otherwise. An image with no malformed line is launched with the bytes
of its lines in line order; a missing file, and a malformed line anywhere, are refused before the core is constructed. The
blanks accepted and the free number of digits are the model's choice, log entry 11. -/
def Obligations.ImageLinesGiveTheirBytes : Prop :=
  (∀ (b : Byte) (comment : List Char),
    let literal := (List.range 8).map fun k => if b.getLsbD (7 - k) then '1' else '0'
    parseLine literal = .byte b ∧ parseLine (literal ++ '#' :: comment) = .byte b ∧
      parseLine (literal ++ ' ' :: '#' :: comment) = .byte b) ∧
  (∀ comment : List Char, parseLine ('#' :: comment) = .skipped) ∧
  parseLine [] = .skipped ∧
  (∀ before content after tail : List Char, (∀ c ∈ before, isBlank c = true) → (∀ c ∈ after, isBlank c = true) →
    isContent content → isTail tail →
    (content = [] → parseLine (before ++ content ++ after ++ tail) = .skipped) ∧
    (content ≠ [] → (∀ c ∈ content, c = '0' ∨ c = '1') → base2Value content ≤ 255 →
      parseLine (before ++ content ++ after ++ tail) = .byte (BitVec.ofNat 8 (base2Value content))) ∧
    (content ≠ [] → (∀ c ∈ content, c = '0' ∨ c = '1') → 255 < base2Value content →
      parseLine (before ++ content ++ after ++ tail) = .malformed) ∧
    (∀ c ∈ content, c ≠ '0' → c ≠ '1' → parseLine (before ++ content ++ after ++ tail) = .malformed)) ∧
  (∀ p : Config.Params, launchImage p none = .refused .programFileMissing) ∧
  (∀ (p : Config.Params) (lines : List (List Char)), (∀ line ∈ lines, parseLine line ≠ .malformed) →
    launchImage p (some lines) = launch p (lines.flatMap fun line => (parseLine line).bytes)) ∧
  (∀ (p : Config.Params) (before after : List (List Char)) (line : List Char),
    parseLine line = .malformed → launchImage p (some (before ++ line :: after)) = .refused .malformedImage)

/-! ## Encoding -/

/-- R53: decoding an opcode byte is the four-row lookup, and every other byte decodes to nothing; the operand bytes
have no say in whether an instruction is found. -/
def Obligations.DecodeIsTheOpcodeTable : Prop :=
  (∀ b : Byte, decodeOp b =
    if b = 0x82 then some .ldi else if b = 0x47 then some .prn else if b = 0xA2 then some .mul
    else if b = 0x01 then some .hlt else none) ∧
  (∀ (b x y : Byte) (rest : List Byte),
    (∃ i, decode (b :: x :: y :: rest) = .ok (.instr i)) ↔ (decodeOp b).isSome = true)

/-- Sanity of the decoder on the words of the worked encoding (R63) and of the decode table (95_test_vectors.md 2.1). -/
def Obligations.WorkedWordsDecode : Prop :=
  decode [0b10000010, 0b00000000, 0b00001000] = .ok (.instr (.ldi 0 8)) ∧
  decode [0b10000010, 0b00000001, 0b00001001] = .ok (.instr (.ldi 1 9)) ∧
  decode [0b10100010, 0b00000000, 0b00000001] = .ok (.instr (.mul 0 1)) ∧
  decode [0b01000111, 0b00000000] = .ok (.instr (.prn 0)) ∧
  decode [0b00000001] = .ok (.instr .hlt) ∧
  decode [0b10100000, 0b00000000, 0b00000001] = .ok (.unknown 0xA0)

/-- R50, R52, R57: the bytes of each instruction are its opcode byte and then its operand bytes unchanged, and a `.byte`
line emits its byte. The `.byte` directive is the spec's decision D17, and lines as data are the model's choice, log entry
12. -/
def Obligations.EncodingsAreTheFormats : Prop :=
  (∀ r imm : Byte, AsmLine.bytes (.instr (.ldi r imm)) = [0b10000010, r, imm]) ∧
  (∀ r : Byte, AsmLine.bytes (.instr (.prn r)) = [0b01000111, r]) ∧
  (∀ a b : Byte, AsmLine.bytes (.instr (.mul a b)) = [0b10100010, a, b]) ∧
  AsmLine.bytes (.instr .hlt) = [0b00000001] ∧
  (∀ v : Byte, AsmLine.bytes (.byte v) = [v])

/-- Every instruction, with every operand byte, comes back from its encoding, whatever bytes follow it, and from its
encoding read as one number of at least its length in bits. -/
def Obligations.DecodeInvertsEncode : Prop :=
  ∀ i : Instr,
    (∀ rest : List Byte, decode (encode i ++ rest) = .ok (.instr i)) ∧
    (∀ nbits : Nat, 8 * i.operation.length ≤ nbits → decodeTableWord nbits (wordOf (encode i)) = some i)

/-- The other direction: bytes that decode to an instruction begin with that instruction's encoding; bytes that
decode to an unknown byte begin with it and it is in no table row; and what decoding misses is the first byte after the
end of the list. -/
def Obligations.DecodedBytesAreTheEncoding : Prop :=
  ∀ bytes : List Byte,
    (∀ i, decode bytes = .ok (.instr i) → encode i <+: bytes) ∧
    (∀ b, decode bytes = .ok (.unknown b) → bytes.head? = some b ∧ decodeOp b = none) ∧
    (∀ k, decode bytes = .error (.missingByte k) → k = bytes.length)

/-- After R56 and R59, which the spec marks as its inference: a sequence of instruction lines and unknown `.byte` lines is
found again by decoding its bytes from the first one forward, each instruction taking its length and each unknown byte
taking 1. Lines as data, their assembly, and a decoding that stops at the end of the bytes are the model's choice, log entry
12. -/
def Obligations.DisassemblyRecoversTheLines : Prop :=
  ∀ lines : List AsmLine, (∀ v, AsmLine.byte v ∈ lines → decodeOp v = none) →
    disassemble (assemble lines).length (assemble lines) = lines

/-- R75, with R93 and the spec's decision D12 (log entry 9). MUL hands its two operands to the ALU under its own identifier, writes what
the ALU answers and moves the PC by 3, a fault of the ALU being the instruction's. The dispatcher's routing condition says
for which instructions that is so: a well-formed one acts as some call of the ALU, whatever the operation, the operands
and the PC advance, exactly when its operation is routed there, which of the four is MUL alone. And ADD, which is
routed there too, is unreachable: no instruction acts as an ADD of two registers. -/
def Obligations.OnlyMulReachesTheAlu : Prop :=
  (∀ (a b : Byte) (s : State),
    exec (.mul a b) s = commit s ((aluApply (.decoded .mul) a b s).map (advance 3))) ∧
  (∀ i : Instr, i.wellFormed = true → (routedToAlu (.decoded i.operation) = true ↔
    ∃ (op : OpId) (a b : Byte) (n : Nat), ∀ s : State, exec i s = commit s ((aluApply op a b s).map (advance n)))) ∧
  (∀ i : Instr, routedToAlu (.decoded i.operation) = true ↔ i.operation = .mul) ∧
  routedToAlu .add = true ∧
  (∀ (i : Instr) (a b : Byte) (n : Nat), a.toNat ≤ 7 → b.toNat ≤ 7 →
    ∃ s : State, s.run = .running ∧ exec i s ≠ commit s ((aluApply .add a b s).map (advance n)))

/-! ## One step -/

/-- Where the bytes at the PC of a RUNNING machine are an instruction's encoding, the step is that instruction's
meaning and nothing around it: the meaning itself moves the PC. -/
def Obligations.StepRunsTheDecodedInstruction : Prop :=
  ∀ (s : State) (i : Instr), s.run = .running →
    (∀ k (h : k < (encode i).length), memRead (s.pc + k) s = .ok (encode i)[k]) →
    step s = exec i s

/-- A table word placed by `withFetchWord` is what the very next step runs, and placing it changes at most the
three cells from the PC. `withFetchWord` is the model's own stand-in for the loader's writes of R36, log entry 6. The
hypotheses are the invariant and that three bytes fit. -/
def Obligations.PlacedWordIsTheNextInstruction : Prop :=
  ∀ (s : State) (nbits w : Nat) (i : Instr), MachineInv s → s.run = .running → s.pc + 3 ≤ s.params.memSize →
    decodeTableWord nbits w = some i →
    step (s.withFetchWord nbits w) = exec i (s.withFetchWord nbits w) ∧
    (∀ addr, addr < s.pc ∨ s.pc + 3 ≤ addr → memRead addr (s.withFetchWord nbits w) = memRead addr s) ∧
    SameRegs s (s.withFetchWord nbits w) ∧ SameStatus s (s.withFetchWord nbits w) ∧
    (s.withFetchWord nbits w).pc = s.pc ∧ (s.withFetchWord nbits w).events = s.events

/-- R85, LDI whole. On an index that names a register the instruction answers a next state: `x[r]` holds the immediate,
the PC is 3 further, and nothing else changes. A larger index faults with no effect. From memory, the two operand
bytes are checked for existence first, the lower first, and then the step is the instruction. (The rule lists these
faults; which accesses fault at all is D4 and D5.) -/
def Obligations.LdiWritesTheImmediate : Prop :=
  ∀ (s : State) (r imm : Byte),
    (r.toNat ≤ 7 → ∃ t, exec (.ldi r imm) s = .next t ∧
      regRead r t = .ok imm ∧ SameRegsExcept r s t ∧ t.pc = s.pc + 3 ∧
      t.events = s.events ∧ SameStatus s t ∧ SameMemory s t) ∧
    (7 < r.toNat → ∃ t, exec (.ldi r imm) s = .next t ∧ FaultedFrom (.outOfBoundsReg r) s t) ∧
    (s.run = .running → memRead s.pc s = .ok 0x82 →
      (s.params.memSize ≤ s.pc + 1 →
        ∃ t, step s = .next t ∧ FaultedFrom (.outOfBoundsMem (s.pc + 1)) s t) ∧
      (s.pc + 1 < s.params.memSize → s.params.memSize ≤ s.pc + 2 →
        ∃ t, step s = .next t ∧ FaultedFrom (.outOfBoundsMem (s.pc + 2)) s t) ∧
      (memRead (s.pc + 1) s = .ok r → memRead (s.pc + 2) s = .ok imm → step s = exec (.ldi r imm) s))

/-- R86, PRN whole. On an index that names a register the instruction answers a next state: one `Print` of the
register's value is appended, standard output grows by its decimal numeral and the line terminator, the PC is 2 further,
and nothing else changes. A larger index faults with no effect. From memory, the operand byte is checked for existence
first; the byte at `pc + 2` has no part in it, so a PRN in the last two cells runs, which is the spec's decision D9, log
entry 7. -/
def Obligations.PrnEmitsTheRegister : Prop :=
  ∀ (s : State) (r : Byte),
    (r.toNat ≤ 7 → ∃ t v, exec (.prn r) s = .next t ∧
      regRead r s = .ok v ∧ t.events = s.events ++ [.print v] ∧
      stdout t = stdout s ++ (decimalNumeral v ++ s.params.lineTerminator) ∧
      SameRegs s t ∧ t.pc = s.pc + 2 ∧ SameStatus s t ∧ SameMemory s t) ∧
    (7 < r.toNat → ∃ t, exec (.prn r) s = .next t ∧ FaultedFrom (.outOfBoundsReg r) s t) ∧
    (s.run = .running → memRead s.pc s = .ok 0x47 →
      (s.params.memSize ≤ s.pc + 1 →
        ∃ t, step s = .next t ∧ FaultedFrom (.outOfBoundsMem (s.pc + 1)) s t) ∧
      (memRead (s.pc + 1) s = .ok r → step s = exec (.prn r) s))

/-- R92, MUL whole. On two indices that name registers, equal or not, the instruction answers a next state: `x[a]`
holds the product of the two old values modulo 256, the PC is 3 further, and nothing else changes. An index that names no
register faults with no effect, `a` before `b`. From memory, the operand bytes are checked for existence first, the
lower first. For a product above 255 the value rests on the spec's decision D3, to wrap, log entry 8; the order of the
checks is D8. -/
def Obligations.MulWritesTheLowByteOfTheProduct : Prop :=
  ∀ (s : State) (a b : Byte),
    (a.toNat ≤ 7 → b.toNat ≤ 7 → ∃ t va vb v, exec (.mul a b) s = .next t ∧
      regRead a s = .ok va ∧ regRead b s = .ok vb ∧ regRead a t = .ok v ∧
      v.toNat = va.toNat * vb.toNat % 256 ∧ SameRegsExcept a s t ∧ t.pc = s.pc + 3 ∧
      t.events = s.events ∧ SameStatus s t ∧ SameMemory s t) ∧
    (7 < a.toNat → ∃ t, exec (.mul a b) s = .next t ∧ FaultedFrom (.outOfBoundsReg a) s t) ∧
    (a.toNat ≤ 7 → 7 < b.toNat → ∃ t, exec (.mul a b) s = .next t ∧ FaultedFrom (.outOfBoundsReg b) s t) ∧
    (s.run = .running → memRead s.pc s = .ok 0xA2 →
      (s.params.memSize ≤ s.pc + 1 →
        ∃ t, step s = .next t ∧ FaultedFrom (.outOfBoundsMem (s.pc + 1)) s t) ∧
      (s.pc + 1 < s.params.memSize → s.params.memSize ≤ s.pc + 2 →
        ∃ t, step s = .next t ∧ FaultedFrom (.outOfBoundsMem (s.pc + 2)) s t) ∧
      (memRead (s.pc + 1) s = .ok a → memRead (s.pc + 2) s = .ok b → step s = exec (.mul a b) s))

/-- R100, HLT whole. It answers a next state that is HALTED and otherwise the same, the PC still at the HLT; no step
exists from there, which `step` answers in the form of log entry 4 (D19); and from memory it needs no byte but its own, so
it runs in the last cell too, which is the spec's decision D9, log entry 7. -/
def Obligations.HltStopsWithThePcUnmoved : Prop :=
  ∀ s : State,
    (∃ t, exec .hlt s = .next t ∧ t.run = .halted ∧ t.pc = s.pc ∧ SameRegs s t ∧ SameMemory s t ∧
      t.events = s.events ∧ t.fault = s.fault ∧ t.params = s.params ∧ step t = .fault .stepAfterHalt) ∧
    (s.run = .running → memRead s.pc s = .ok 0x01 → step s = exec .hlt s)

/-- R74: an unknown opcode byte emits one diagnostic that carries it, moves the PC by exactly 1 whatever its bits, and
changes nothing else; the machine stays RUNNING. No byte after it is read, so it is skipped in the last two cells too, which is
the spec's decision D9, log entry 7. -/
def Obligations.UnknownOpcodeIsSkipped : Prop :=
  ∀ (s : State) (b : Byte), s.run = .running → memRead s.pc s = .ok b →
    b ≠ 0x01 → b ≠ 0x47 → b ≠ 0x82 → b ≠ 0xA2 →
    ∃ t, step s = .next t ∧ t.events = s.events ++ [.diag b] ∧ t.pc = s.pc + 1 ∧ t.run = .running ∧
      SameRegs s t ∧ SameStatus s t ∧ SameMemory s t

/-- R71, with the spec's decision D5: what the fetch decodes is the byte at the PC; a fetch from a PC with no memory cell,
which under the PC's invariant can only be `MEM_SIZE`, ends the step in FAULTED with nothing else changed. -/
def Obligations.FetchReadsTheByteAtThePcOrFaults : Prop :=
  ∀ s : State,
    (∀ op, fetch s = .ok (.unknown op) → memRead s.pc s = .ok op) ∧
    (∀ i, fetch s = .ok (.instr i) → memRead s.pc s = .ok (opcodeByte i.operation)) ∧
    (s.run = .running → s.params.memSize ≤ s.pc →
      (∃ t, step s = .next t ∧ FaultedFrom (.outOfBoundsMem s.pc) s t) ∧
      (MachineInv s → s.pc = s.params.memSize))

/-! ## Shared operations -/

/-- R10, R12, with the spec's decision D4: reading or writing a register by an index above 7 raises `OutOfBounds(Reg, i)` with the whole byte; an index up
to 7 reads a value, and a write there is read back, with every other register and the rest of the state as before. -/
def Obligations.RegisterAccessIsBoundsChecked : Prop :=
  ∀ (i v : Byte) (s : State),
    (7 < i.toNat → regRead i s = .error (.outOfBoundsReg i) ∧ regWrite i v s = .error (.outOfBoundsReg i)) ∧
    (i.toNat ≤ 7 → (∃ w, regRead i s = .ok w) ∧ ∃ t, regWrite i v s = .ok t ∧ regRead i t = .ok v ∧
      SameRegsExcept i s t ∧ t.pc = s.pc ∧ t.events = s.events ∧ SameStatus s t ∧ SameMemory s t)

/-- R32, R34, with the spec's decision D5 for the read and log entry 13 for the write: a memory access with no cell raises `OutOfBounds(Mem, addr)`, and any other read gives the cell's byte; a
byte written is read back, every other address reads as before, and the canonical form of memory is kept. -/
def Obligations.MemoryReadsWhatWasWritten : Prop :=
  ∀ (addr : Nat) (v : Byte) (s : State),
    (s.params.memSize ≤ addr → memRead addr s = .error (.outOfBoundsMem addr) ∧
      memWrite addr v s = .error (.outOfBoundsMem addr)) ∧
    (addr < s.params.memSize → memRead addr s = .ok (Memory.read s.mem addr)) ∧
    (Memory.wf s.mem → addr < s.params.memSize → ∃ t, memWrite addr v s = .ok t ∧ memRead addr t = .ok v ∧
      (∀ a, a ≠ addr → memRead a t = memRead a s) ∧ Memory.wf t.mem ∧
      SameRegs s t ∧ t.pc = s.pc ∧ t.events = s.events ∧ SameStatus s t)

/-- The model's own canonical form of memory: two machines of one size whose memories read the same at every address hold the same memory data. -/
def Obligations.EqualReadsMakeEqualMemory : Prop :=
  ∀ s t : State, MachineInv s → MachineInv t → s.params = t.params → SameMemory s t → s.mem = t.mem

/-- R90, with the laws of R91 and R93's ADD and the spec's decisions D3 (wrap, log entry 8) and D8 (order): `ALU.apply` checks `a` before `b`; on two valid indices ADD and MUL write the
exact sum or product modulo 256 to `x[a]` and change nothing else, and any other identifier is
`UnsupportedOperation` with nothing written. -/
def Obligations.AluAppliesItsTwoOperations : Prop :=
  ∀ (a b : Byte) (s : State),
    (∀ op, 7 < a.toNat → aluApply op a b s = .error (.outOfBoundsReg a)) ∧
    (∀ op, a.toNat ≤ 7 → 7 < b.toNat → aluApply op a b s = .error (.outOfBoundsReg b)) ∧
    (a.toNat ≤ 7 → b.toNat ≤ 7 → ∃ va vb, regRead a s = .ok va ∧ regRead b s = .ok vb ∧
      (∃ t v, aluApply .add a b s = .ok t ∧ regRead a t = .ok v ∧ v.toNat = (va.toNat + vb.toNat) % 256 ∧
        SameRegsExcept a s t ∧ t.pc = s.pc ∧ t.events = s.events ∧ SameStatus s t ∧ SameMemory s t) ∧
      (∃ t v, aluApply (.decoded .mul) a b s = .ok t ∧ regRead a t = .ok v ∧
        v.toNat = va.toNat * vb.toNat % 256 ∧
        SameRegsExcept a s t ∧ t.pc = s.pc ∧ t.events = s.events ∧ SameStatus s t ∧ SameMemory s t) ∧
      (∀ op, op ≠ .add → op ≠ .decoded .mul → aluApply op a b s = .error (.unsupportedOperation op)))

/-- R112, the spec's decision D13: the code is 0 when the machine is not FAULTED and otherwise the cause's: 1, 2 or 3. -/
def Obligations.CauseCodesAreNumbered : Prop :=
  (∀ s : State, s.run ≠ .faulted → causeCode s = 0) ∧
  (∀ (s : State) (c : FaultCause), causeCode (raise c s) =
    match c with
    | .outOfBoundsMem _ => 1
    | .outOfBoundsReg _ => 2
    | .unsupportedOperation _ => 3)

/-- R21, with the spec's decisions D10 and D11: the numeral of a byte is its shortest decimal one, and, where diagnostics go to the error stream, standard
output is the concatenation of the printed lines of the `Print` events alone. -/
def Obligations.ConsoleShowsShortestNumerals : Prop :=
  (∀ v : Byte,
    (decimalNumeral v).foldl (fun n c => 10 * n + (c.toNat - 48)) 0 = v.toNat ∧
    (∀ c ∈ decimalNumeral v, '0' ≤ c ∧ c ≤ '9') ∧
    ((decimalNumeral v).head? = some '0' ↔ v = 0) ∧ (v = 0 → decimalNumeral v = ['0']) ∧
    1 ≤ (decimalNumeral v).length ∧ (decimalNumeral v).length ≤ 3) ∧
  (∀ s : State, s.params.diagStream = .err → stdout s = s.events.flatMap fun e =>
    match e with
    | .print v => decimalNumeral v ++ s.params.lineTerminator
    | .diag _ => [])

/-- R21, R5, with the spec's decisions D10 and D11: an event shows on exactly one stream. A `Print` adds its line to standard
output whatever `DIAG_STREAM` is; a `Diag` adds its text to the stream `DIAG_STREAM` names; the other stream is
unchanged, and no event shows nothing. The text of a diagnostic is a free value, log entry 3: the statement holds of
any. -/
def Obligations.EventsShowOnTheirStream : Prop :=
  (∀ s : State, s.events = [] → stdout s = [] ∧ stderr s = []) ∧
  (∀ (s : State) (v : Byte),
    stdout (emit (.print v) s) = stdout s ++ (decimalNumeral v ++ s.params.lineTerminator) ∧
    stderr (emit (.print v) s) = stderr s) ∧
  (∀ (s : State) (b : Byte), s.params.diagStream = .out →
    stdout (emit (.diag b) s) = stdout s ++ Config.diagText s.events.length b ∧
    stderr (emit (.diag b) s) = stderr s) ∧
  (∀ (s : State) (b : Byte), s.params.diagStream = .err →
    stdout (emit (.diag b) s) = stdout s ∧
    stderr (emit (.diag b) s) = stderr s ++ Config.diagText s.events.length b)

/-! ## Rules of the whole machine -/

/-- R17, with the spec's decisions D6 and D19 (what `step` answers where none exists is log entry 4): a step exists exactly in RUNNING; it ends HALTED exactly where the byte at the PC is HLT, and FAULTED exactly
when a fault was recorded; construction gives RUNNING; and no instruction reads `run`. -/
def Obligations.RunStateTransitions : Prop :=
  (∀ p : Config.Params, (State.resetWith p).run = .running) ∧
  (∀ s : State, (∃ t, step s = .next t) ↔ s.run = .running) ∧
  (∀ s : State, s.run = .halted → step s = .fault .stepAfterHalt) ∧
  (∀ s : State, s.run = .faulted → step s = .fault .stepAfterFault) ∧
  (∀ s t : State, MachineInv s → step s = .next t →
    (t.run = .halted ↔ memRead s.pc s = .ok 0x01) ∧ (t.run = .faulted ↔ t.fault ≠ none)) ∧
  (∀ (i : Instr) (s t : State) (r : RunState), exec i s = .next t →
    ∃ t', exec i { s with run := r } = .next t' ∧ { t' with run := t.run } = t)

/-- R15, with the spec's decisions D2 and D7: where each step leaves the PC. -/
def Obligations.PcAdvancesByTheOutcome : Prop :=
  ∀ s t : State, step s = .next t →
    (t.run = .faulted → t.pc = s.pc) ∧
    (t.run ≠ .faulted →
      (opAtPc s = some .ldi → t.pc = s.pc + 3) ∧
      (opAtPc s = some .prn → t.pc = s.pc + 2) ∧
      (opAtPc s = some .mul → t.pc = s.pc + 3) ∧
      (opAtPc s = some .hlt → t.pc = s.pc) ∧
      (opAtPc s = none → t.pc = s.pc + 1))

/-- R35, which the spec marks as its inference, and R26: no step changes Memory, nor the parameters, so both are constant for the whole of a run. -/
def Obligations.RunsNeverWriteMemory : Prop :=
  (∀ s t : State, step s = .next t → t.mem = s.mem ∧ t.params = s.params) ∧
  (∀ (n : Nat) (s : State), (runFor n s).mem = s.mem ∧ (runFor n s).params = s.params)

/-- R13: registers change by LDI and MUL alone, and then at most the one the first operand byte names. -/
def Obligations.OnlyLdiAndMulChangeRegisters : Prop :=
  ∀ s t : State, step s = .next t →
    (opAtPc s ≠ some .ldi → opAtPc s ≠ some .mul → SameRegs s t) ∧
    SameRegsExcept (Memory.read s.mem (s.pc + 1)) s t

/-- R20, with the spec's decision D10, what is appended: one `Print` by an executed PRN, one `Diag` by a skipped byte, nothing by any other step; and
nothing that was appended is ever taken away. -/
def Obligations.EventsAreAppendedInOrder : Prop :=
  ∀ s t : State, step s = .next t →
    (t.run = .faulted → t.events = s.events) ∧
    (t.run ≠ .faulted →
      (opAtPc s = some .prn → ∃ v, regRead (Memory.read s.mem (s.pc + 1)) s = .ok v ∧
        t.events = s.events ++ [.print v]) ∧
      (opAtPc s = none → t.events = s.events ++ [.diag (Memory.read s.mem s.pc)]) ∧
      (opAtPc s ≠ some .prn → opAtPc s ≠ none → t.events = s.events))

/-- R20, R18: no step reads the event stream or an older fault record. -/
def Obligations.EventsAndFaultRecordAreNotRead : Prop :=
  ∀ (s t : State) (older : List Event) (f : Option FaultRecord), step s = .next t →
    step { s with events := older ++ s.events } = .next { t with events := older ++ t.events } ∧
    ∃ t', step { s with fault := f } = .next t' ∧ { t' with fault := t.fault } = t ∧
      (t.run = .faulted → t' = t) ∧ (t.run ≠ .faulted → t'.fault = f)

/-- R45, R31, with the spec's decision D9, log entry 7: a step depends on no memory cell but the opcode's and those of the operands the instruction has. -/
def Obligations.OnlyTheInstructionBytesAreRead : Prop :=
  ∀ (s t : State) (m : Memory), step s = .next t →
    (∀ k, k < bytesRead s → Memory.read m (s.pc + k) = Memory.read s.mem (s.pc + k)) →
    step { s with mem := m } = .next { t with mem := m }

/-- An inference from R11: no register is special, the three with conventional roles among them. Renaming the registers by any permutation,
in the instruction and in the state, renames them in the result and changes nothing else; a step that executes no
instruction does not care which register is which; and at reset all are alike. -/
def Obligations.RegistersAreInterchangeable : Prop :=
  ∀ π : Equiv.Perm (Fin 8),
    (∀ (i : Instr) (s t : State), exec i s = .next t →
      exec (renameInstr π i) (permuteRegs π s) = .next (permuteRegs π t)) ∧
    (∀ s t : State, step s = .next t → opAtPc s = none →
      step (permuteRegs π s) = .next (permuteRegs π t)) ∧
    (∀ p : Config.Params, permuteRegs π (State.resetWith p) = State.resetWith p ∧
      ∀ i : Byte, i.toNat ≤ 7 → regRead i (State.resetWith p) = .ok 0)

/-- R53, R57, with the spec's decision D4: a well-formed instruction, run from RUNNING, does not fault, and one with an index out of range always does. -/
def Obligations.IllFormedInstructionsFault : Prop :=
  ∀ (i : Instr) (s : State), s.run = .running →
    ∃ t, exec i s = .next t ∧ (t.run = .faulted ↔ i.wellFormed = false)

/-! ## Faults -/

/-- R109, with the spec's decisions D6 and D7: raising a fault sets FAULTED and the record and changes nothing else, and a step that ends FAULTED has
no other effect at all, so there is no partial outcome. -/
def Obligations.FaultsAreExact : Prop :=
  (∀ (c : FaultCause) (s : State), FaultedFrom c s (raise c s)) ∧
  (∀ s t : State, step s = .next t → t.run = .faulted → ∃ c, FaultedFrom c s t)

/-- R137, R106, the spec's inference and its decisions D4, D5 and D9 (log entry 7): exactly when a step ends FAULTED. -/
def Obligations.StepFaultsExactlyWhen : Prop :=
  ∀ s t : State, step s = .next t →
    (t.run = .faulted ↔ s.params.memSize ≤ s.pc ∨ ∃ op, opAtPc s = some op ∧
      (s.params.memSize < s.pc + op.length ∨ (op ≠ .hlt ∧ badIndexAt s 1) ∨ (op = .mul ∧ badIndexAt s 2)))

/-- R106, R108, with the spec's decision D8: which fault is recorded. A memory fault reports exactly `MEM_SIZE`, and the recorded PC tells the fetch,
the first operand and the second apart. A register fault means that every byte of the instruction exists, and it
reports the first index out of range. No step records `UnsupportedOperation`. -/
def Obligations.RecordedCauseFollowsTheCheckOrder : Prop :=
  ∀ (s t : State) (c : FaultCause), MachineInv s → step s = .next t → t.fault = some { cause := c, atPc := s.pc } →
    match c with
    | .outOfBoundsMem addr => addr = s.params.memSize ∧
        (s.pc = s.params.memSize ∨
          (∃ op, opAtPc s = some op ∧ op ≠ .hlt ∧ s.pc + 1 = s.params.memSize) ∨
          ((opAtPc s = some .ldi ∨ opAtPc s = some .mul) ∧ s.pc + 2 = s.params.memSize))
    | .outOfBoundsReg i => ∃ op, opAtPc s = some op ∧ s.pc + op.length ≤ s.params.memSize ∧ 7 < i.toNat ∧
        (i = Memory.read s.mem (s.pc + 1) ∨
          (op = .mul ∧ ¬ badIndexAt s 1 ∧ i = Memory.read s.mem (s.pc + 2)))
    | .unsupportedOperation _ => False

/-! ## The invariant and the end of a run -/

/-- The machine after construction with admitted parameters meets the invariant. -/
def Obligations.ResetMeetsTheInvariant : Prop :=
  (∀ p : Config.Params, p.wf → MachineInv (State.resetWith p)) ∧ MachineInv State.reset

/-- Every launched machine, whatever its program, meets the invariant. -/
def Obligations.LaunchedMachinesMeetTheInvariant : Prop :=
  ∀ (p : Config.Params) (prog : List Byte) (s : State), launch p prog = .next s → MachineInv s

/-- Every step keeps the invariant: the PC stays within `[0, MEM_SIZE]`, memory keeps its canonical form, the fault
record is there exactly in FAULTED and is that of the instruction at the PC, and HALTED stands at an HLT. -/
def Obligations.StepKeepsTheInvariant : Prop :=
  ∀ s t : State, MachineInv s → step s = .next t → MachineInv t

/-- R78, which the spec marks as its inference: every run is over within `MEM_SIZE + 1` steps, fewer by the PC it starts from, and more steps change
nothing. -/
def Obligations.EveryRunEndsWithinMemSizePlusOneSteps : Prop :=
  ∀ s : State, s.pc ≤ s.params.memSize →
    ended (runFor (s.params.memSize + 1 - s.pc) s) = true ∧
    (∀ n, s.params.memSize + 1 - s.pc ≤ n → runFor n s = runCore s)

/-- R77: the run of a launched program ends in exactly one of two ways: HALTED at the address of an HLT with no fault
recorded, or FAULTED at the address the record names, with a possible cause. FAULTED is the spec's decision D6, the
possible causes are R106's inference, the bound in `runCore` is R78's inference (log entry 14), and the launch is R36's (log entry
6). -/
def Obligations.RunsEndHaltedOrFaulted : Prop :=
  ∀ (p : Config.Params) (prog : List Byte) (s : State), launch p prog = .next s →
    ((runCore s).run = .halted ∧ memRead (runCore s).pc (runCore s) = .ok 0x01 ∧ (runCore s).fault = none) ∨
    ((runCore s).run = .faulted ∧ ∃ c, (runCore s).fault = some { cause := c, atPc := (runCore s).pc } ∧
      possibleCause (runCore s) (runCore s).pc c)
end

