-- ==== Sys2Proof/Laws/Decode.lean ====
section
/-! SUPPORT. What the decoder answers, said once for any reader of bytes. -/

namespace Sys2Proof

/-- The opcode table as R53 writes it. -/
theorem decodeOp_eq (b : Byte) : decodeOp b =
    if b = 0x82 then some .ldi else if b = 0x47 then some .prn else if b = 0xA2 then some .mul
    else if b = 0x01 then some .hlt else none := by
  revert b; decide

@[simp] theorem decodeOp_opcodeByte (o : Operation) : decodeOp (opcodeByte o) = some o := by
  revert o; intro o; cases o <;> decide

theorem decodeOp_eq_some {b : Byte} {o : Operation} : decodeOp b = some o ↔ b = opcodeByte o := by
  revert b; cases o <;> decide

@[simp] theorem encode_length (i : Instr) : (encode i).length = i.operation.length := by
  cases i <;> rfl

theorem operation_length_bounds (o : Operation) : 1 ≤ o.length ∧ o.length ≤ 3 := by
  cases o <;> decide

section
variable {ε : Type} {rd : Nat → Except ε Byte}

theorem decodeFrom_of_error {e : ε} (h : rd 0 = .error e) : decodeFrom rd = .error e := by
  simp [decodeFrom, h, bind, Except.bind]

theorem decodeFrom_of_unknown {b : Byte} (h : rd 0 = .ok b) (hb : decodeOp b = none) :
    decodeFrom rd = .ok (.unknown b) := by
  simp [decodeFrom, h, hb, bind, Except.bind, pure, Except.pure]

theorem decodeFrom_ldi (h : rd 0 = .ok (opcodeByte .ldi)) : decodeFrom rd = (do
    let r ← rd 1
    let imm ← rd 2
    pure (.instr (.ldi r imm))) := by
  simp only [decodeFrom, h, bind, Except.bind, decodeOp_opcodeByte]

theorem decodeFrom_prn (h : rd 0 = .ok (opcodeByte .prn)) : decodeFrom rd = (do
    let r ← rd 1
    pure (.instr (.prn r))) := by
  simp only [decodeFrom, h, bind, Except.bind, decodeOp_opcodeByte]

theorem decodeFrom_mul (h : rd 0 = .ok (opcodeByte .mul)) : decodeFrom rd = (do
    let a ← rd 1
    let b ← rd 2
    pure (.instr (.mul a b))) := by
  simp only [decodeFrom, h, bind, Except.bind, decodeOp_opcodeByte]

theorem decodeFrom_hlt (h : rd 0 = .ok (opcodeByte .hlt)) :
    decodeFrom rd = .ok (.instr .hlt) := by
  simp only [decodeFrom, h, bind, Except.bind, decodeOp_opcodeByte, pure, Except.pure]

/-- Everything decoding can do: the opcode cannot be read, or it is unknown, or an operand byte cannot be read
(the lowest such), or an instruction is found whose encoding is what the reader gives. -/
theorem decodeFrom_cases (rd : Nat → Except ε Byte) :
    (∃ e, rd 0 = .error e ∧ decodeFrom rd = .error e) ∨
    (∃ b, rd 0 = .ok b ∧ decodeOp b = none ∧ decodeFrom rd = .ok (.unknown b)) ∨
    (∃ o k e, rd 0 = .ok (opcodeByte o) ∧ 0 < k ∧ k < o.length ∧ (∀ j < k, ∃ b, rd j = .ok b) ∧
      rd k = .error e ∧ decodeFrom rd = .error e) ∨
    (∃ i, (∀ k (h : k < (encode i).length), rd k = .ok (encode i)[k]) ∧
      decodeFrom rd = .ok (.instr i)) := by
  rcases h0 : rd 0 with e | b
  · exact .inl ⟨e, rfl, decodeFrom_of_error h0⟩
  rcases hb : decodeOp b with _ | o
  · exact .inr (.inl ⟨b, rfl, hb, decodeFrom_of_unknown h0 hb⟩)
  refine .inr (.inr ?_)
  obtain rfl := decodeOp_eq_some.1 hb
  have hj1 : ∀ j < 1, ∃ b, rd j = .ok b := fun j hj => by
    obtain rfl : j = 0 := by omega
    exact ⟨_, h0⟩
  cases o with
  | ldi =>
    rcases h1 : rd 1 with e | r
    · exact .inl ⟨.ldi, 1, e, rfl, by decide, by decide, hj1, h1, by
        simp [decodeFrom_ldi h0, h1, bind, Except.bind]⟩
    rcases h2 : rd 2 with e | imm
    · refine .inl ⟨.ldi, 2, e, rfl, by decide, by decide, fun j hj => ?_, h2, by
        simp [decodeFrom_ldi h0, h1, h2, bind, Except.bind]⟩
      interval_cases j
      · exact ⟨_, h0⟩
      · exact ⟨_, h1⟩
    refine .inr ⟨.ldi r imm, fun k h => ?_, by
      simp [decodeFrom_ldi h0, h1, h2, bind, Except.bind, pure, Except.pure]⟩
    simp only [encode_length, Instr.operation, Operation.length] at h
    interval_cases k
    · exact h0
    · exact h1
    · exact h2
  | prn =>
    rcases h1 : rd 1 with e | r
    · exact .inl ⟨.prn, 1, e, rfl, by decide, by decide, hj1, h1, by
        simp [decodeFrom_prn h0, h1, bind, Except.bind]⟩
    refine .inr ⟨.prn r, fun k h => ?_, by
      simp [decodeFrom_prn h0, h1, bind, Except.bind, pure, Except.pure]⟩
    simp only [encode_length, Instr.operation, Operation.length] at h
    interval_cases k
    · exact h0
    · exact h1
  | mul =>
    rcases h1 : rd 1 with e | a
    · exact .inl ⟨.mul, 1, e, rfl, by decide, by decide, hj1, h1, by
        simp [decodeFrom_mul h0, h1, bind, Except.bind]⟩
    rcases h2 : rd 2 with e | b
    · refine .inl ⟨.mul, 2, e, rfl, by decide, by decide, fun j hj => ?_, h2, by
        simp [decodeFrom_mul h0, h1, h2, bind, Except.bind]⟩
      interval_cases j
      · exact ⟨_, h0⟩
      · exact ⟨_, h1⟩
    refine .inr ⟨.mul a b, fun k h => ?_, by
      simp [decodeFrom_mul h0, h1, h2, bind, Except.bind, pure, Except.pure]⟩
    simp only [encode_length, Instr.operation, Operation.length] at h
    interval_cases k
    · exact h0
    · exact h1
    · exact h2
  | hlt =>
    refine .inr ⟨.hlt, fun k h => ?_, decodeFrom_hlt h0⟩
    simp only [encode_length, Instr.operation, Operation.length] at h
    interval_cases k
    exact h0

/-- A reader that gives an instruction's encoding decodes to it. -/
theorem decodeFrom_encode {i : Instr} (h : ∀ k (hk : k < (encode i).length), rd k = .ok (encode i)[k]) :
    decodeFrom rd = .ok (.instr i) := by
  cases i with
  | ldi r imm =>
    have h1 : rd 1 = .ok r := h 1 (by simp [Instr.operation, Operation.length])
    have h2 : rd 2 = .ok imm := h 2 (by simp [Instr.operation, Operation.length])
    simp [decodeFrom_ldi (h 0 (by simp [Instr.operation, Operation.length])), h1, h2, bind, Except.bind, pure, Except.pure]
  | prn r =>
    have h1 : rd 1 = .ok r := h 1 (by simp [Instr.operation, Operation.length])
    simp [decodeFrom_prn (h 0 (by simp [Instr.operation, Operation.length])), h1, bind, Except.bind, pure, Except.pure]
  | mul a b =>
    have h1 : rd 1 = .ok a := h 1 (by simp [Instr.operation, Operation.length])
    have h2 : rd 2 = .ok b := h 2 (by simp [Instr.operation, Operation.length])
    simp [decodeFrom_mul (h 0 (by simp [Instr.operation, Operation.length])), h1, h2, bind, Except.bind, pure, Except.pure]
  | hlt => exact decodeFrom_hlt (h 0 (by simp [Instr.operation, Operation.length]))

end

end Sys2Proof
end

