-- ==== Sys2Proof/Laws/Memory.lean ====
section
/-! SUPPORT. The laws of memory as data: read after write, the canonical form kept by every write, and equal
reads make equal memories. -/

namespace Sys2Proof.Machine

theorem Memory.wf_nil : Memory.wf [] := ⟨List.Pairwise.nil, by simp⟩

theorem Memory.wf_tail {c : Host.Cell} {m : Memory} (h : Memory.wf (c :: m)) : Memory.wf m :=
  ⟨(List.pairwise_cons.1 h.1).2, fun d hd => h.2 d (List.mem_cons_of_mem _ hd)⟩

theorem Memory.wf_head_lt {c : Host.Cell} {m : Memory} (h : Memory.wf (c :: m)) :
    ∀ d ∈ m, c.1 < d.1 := (List.pairwise_cons.1 h.1).1

/-- Below the first listed address every cell is unlisted. -/
theorem Memory.read_below {m : Memory} {addr : Nat} (h : ∀ c ∈ m, addr < c.1) :
    Memory.read m addr = Memory.unlisted := by
  induction m with
  | nil => rfl
  | cons c m ih =>
    have hc : c.1 ≠ addr := Nat.ne_of_gt (h c List.mem_cons_self)
    simp only [Memory.read, if_neg hc]
    exact ih fun d hd => h d (List.mem_cons_of_mem _ hd)

theorem Memory.read_cons {m : Memory} {addr : Nat} (v : Byte) (h : ∀ c ∈ m, addr < c.1) (a : Nat) :
    Memory.read (Memory.cons addr v m) a = if a = addr then v else Memory.read m a := by
  unfold Memory.cons
  by_cases hv : v = Memory.unlisted
  · rw [if_pos hv]
    by_cases ha : a = addr
    · rw [if_pos ha, ha, Memory.read_below h, hv]
    · rw [if_neg ha]
  · rw [if_neg hv]
    simp only [Memory.read, eq_comm]

theorem Memory.wf_cons {m : Memory} {addr : Nat} (v : Byte) (hm : Memory.wf m) (h : ∀ c ∈ m, addr < c.1) :
    Memory.wf (Memory.cons addr v m) := by
  unfold Memory.cons
  split
  · exact hm
  · next hv =>
    refine ⟨List.pairwise_cons.2 ⟨h, hm.1⟩, fun c hc => ?_⟩
    rcases List.mem_cons.1 hc with rfl | hc
    · exact hv
    · exact hm.2 c hc

theorem Memory.mem_cons_cases {m : Memory} {addr : Nat} {v : Byte} {c : Host.Cell}
    (h : c ∈ Memory.cons addr v m) : c.1 = addr ∨ c ∈ m := by
  unfold Memory.cons at h
  split at h
  · exact .inr h
  · rcases List.mem_cons.1 h with rfl | h
    · exact .inl rfl
    · exact .inr h

/-- A write lists no address but its own and those listed before. -/
theorem Memory.mem_write_cases {m : Memory} {addr : Nat} {v : Byte} {c : Host.Cell}
    (h : c ∈ Memory.write m addr v) : c.1 = addr ∨ c ∈ m := by
  induction m with
  | nil => exact Memory.mem_cons_cases h
  | cons d m ih =>
    simp only [Memory.write] at h
    split at h
    · exact Memory.mem_cons_cases h
    · split at h
      · exact (Memory.mem_cons_cases h).imp id (List.mem_cons_of_mem _)
      · rcases List.mem_cons.1 h with rfl | h
        · exact .inr List.mem_cons_self
        · exact (ih h).imp id (List.mem_cons_of_mem _)

/-- Every write keeps the canonical form. -/
theorem Memory.wf_write {m : Memory} (addr : Nat) (v : Byte) (hm : Memory.wf m) :
    Memory.wf (Memory.write m addr v) := by
  induction m with
  | nil => exact Memory.wf_cons v Memory.wf_nil (by simp)
  | cons d m ih =>
    have hlt := Memory.wf_head_lt hm
    simp only [Memory.write]
    split
    · next h =>
      refine Memory.wf_cons v hm fun c hc => ?_
      rcases List.mem_cons.1 hc with rfl | hc
      · exact h
      · exact h.trans (hlt c hc)
    · split
      · next h => exact Memory.wf_cons v (Memory.wf_tail hm) fun c hc => h ▸ hlt c hc
      · next h1 h2 =>
        have ih := ih (Memory.wf_tail hm)
        refine ⟨List.pairwise_cons.2 ⟨fun c hc => ?_, ih.1⟩, fun c hc => ?_⟩
        · rcases Memory.mem_write_cases hc with hc | hc
          · omega
          · exact hlt c hc
        · rcases List.mem_cons.1 hc with rfl | hc
          · exact hm.2 _ List.mem_cons_self
          · exact ih.2 c hc

/-- Reading after a write: the written byte there, every other byte as before. -/
theorem Memory.read_write {m : Memory} (hm : Memory.wf m) (addr : Nat) (v : Byte) (a : Nat) :
    Memory.read (Memory.write m addr v) a = if a = addr then v else Memory.read m a := by
  induction m with
  | nil => exact Memory.read_cons v (by simp) a
  | cons d m ih =>
    have hlt := Memory.wf_head_lt hm
    simp only [Memory.write]
    split
    · next h =>
      refine Memory.read_cons v (fun c hc => ?_) a
      rcases List.mem_cons.1 hc with rfl | hc
      · exact h
      · exact h.trans (hlt c hc)
    · split
      · next h =>
        rw [Memory.read_cons v (fun c hc => h ▸ hlt c hc) a]
        by_cases ha : a = addr
        · simp [ha]
        · have : d.1 ≠ a := fun h' => ha (h'.symm.trans h.symm)
          simp [ha, Memory.read, this]
      · next h1 h2 =>
        simp only [Memory.read]
        by_cases ha : d.1 = a
        · have : a ≠ addr := fun h' => h2 (h'.symm.trans ha.symm)
          simp [ha, this]
        · simp only [if_neg ha]
          exact ih (Memory.wf_tail hm)

/-- The canonical form: two memories that read the same everywhere are the same data. -/
theorem Memory.ext_read {m n : Memory} (hm : Memory.wf m) (hn : Memory.wf n)
    (h : ∀ a, Memory.read m a = Memory.read n a) : m = n := by
  induction m generalizing n with
  | nil =>
    cases n with
    | nil => rfl
    | cons d n =>
      have := h d.1
      simp only [Memory.read, if_pos] at this
      exact absurd this.symm (hn.2 d List.mem_cons_self)
  | cons c m ih =>
    cases n with
    | nil =>
      have := h c.1
      simp only [Memory.read, if_pos] at this
      exact absurd this (hm.2 c List.mem_cons_self)
    | cons d n =>
      have hc := h c.1
      have hd := h d.1
      simp only [Memory.read, if_pos] at hc hd
      have h1 : c.1 = d.1 := by
        rcases Nat.lt_trichotomy c.1 d.1 with hlt | heq | hgt
        · rw [if_neg (Nat.ne_of_gt hlt),
            Memory.read_below fun e he => hlt.trans (Memory.wf_head_lt hn e he)] at hc
          exact absurd hc (hm.2 c List.mem_cons_self)
        · exact heq
        · rw [if_neg (Nat.ne_of_gt hgt),
            Memory.read_below fun e he => hgt.trans (Memory.wf_head_lt hm e he)] at hd
          exact absurd hd.symm (hn.2 d List.mem_cons_self)
      have h2 : c.2 = d.2 := by rw [if_pos h1.symm] at hc; exact hc
      have hcd : c = d := Prod.ext h1 h2
      subst hcd
      congr 1
      refine ih (Memory.wf_tail hm) (Memory.wf_tail hn) fun a => ?_
      have ha := h a
      simp only [Memory.read] at ha
      by_cases hca : c.1 = a
      · rw [Memory.read_below fun e he => hca ▸ Memory.wf_head_lt hm e he,
          Memory.read_below fun e he => hca ▸ Memory.wf_head_lt hn e he]
      · rwa [if_neg hca, if_neg hca] at ha

end Sys2Proof.Machine
end

