-- ==== Sys2Proof/Laws/State.lean ====
section
/-! SUPPORT. What each update of the state does to each field, so that no proof unfolds an update. -/

namespace Sys2Proof.Machine

@[simp] theorem advance_params (n : Nat) (s : State) : (advance n s).params = s.params := rfl
@[simp] theorem advance_regs (n : Nat) (s : State) : (advance n s).regs = s.regs := rfl
@[simp] theorem advance_pc (n : Nat) (s : State) : (advance n s).pc = s.pc + n := rfl
@[simp] theorem advance_run (n : Nat) (s : State) : (advance n s).run = s.run := rfl
@[simp] theorem advance_fault (n : Nat) (s : State) : (advance n s).fault = s.fault := rfl
@[simp] theorem advance_mem (n : Nat) (s : State) : (advance n s).mem = s.mem := rfl
@[simp] theorem advance_events (n : Nat) (s : State) : (advance n s).events = s.events := rfl

@[simp] theorem emit_params (e : Event) (s : State) : (emit e s).params = s.params := rfl
@[simp] theorem emit_regs (e : Event) (s : State) : (emit e s).regs = s.regs := rfl
@[simp] theorem emit_pc (e : Event) (s : State) : (emit e s).pc = s.pc := rfl
@[simp] theorem emit_run (e : Event) (s : State) : (emit e s).run = s.run := rfl
@[simp] theorem emit_fault (e : Event) (s : State) : (emit e s).fault = s.fault := rfl
@[simp] theorem emit_mem (e : Event) (s : State) : (emit e s).mem = s.mem := rfl
@[simp] theorem emit_events (e : Event) (s : State) : (emit e s).events = s.events ++ [e] := rfl

@[simp] theorem halt_params (s : State) : (halt s).params = s.params := rfl
@[simp] theorem halt_regs (s : State) : (halt s).regs = s.regs := rfl
@[simp] theorem halt_pc (s : State) : (halt s).pc = s.pc := rfl
@[simp] theorem halt_run (s : State) : (halt s).run = .halted := rfl
@[simp] theorem halt_fault (s : State) : (halt s).fault = s.fault := rfl
@[simp] theorem halt_mem (s : State) : (halt s).mem = s.mem := rfl
@[simp] theorem halt_events (s : State) : (halt s).events = s.events := rfl

@[simp] theorem raise_params (c : FaultCause) (s : State) : (raise c s).params = s.params := rfl
@[simp] theorem raise_regs (c : FaultCause) (s : State) : (raise c s).regs = s.regs := rfl
@[simp] theorem raise_pc (c : FaultCause) (s : State) : (raise c s).pc = s.pc := rfl
@[simp] theorem raise_run (c : FaultCause) (s : State) : (raise c s).run = .faulted := rfl
@[simp] theorem raise_fault (c : FaultCause) (s : State) : (raise c s).fault = some ⟨c, s.pc⟩ := rfl
@[simp] theorem raise_mem (c : FaultCause) (s : State) : (raise c s).mem = s.mem := rfl
@[simp] theorem raise_events (c : FaultCause) (s : State) : (raise c s).events = s.events := rfl

@[simp] theorem skipUnknown_params (b : Byte) (s : State) : (skipUnknown b s).params = s.params := rfl
@[simp] theorem skipUnknown_regs (b : Byte) (s : State) : (skipUnknown b s).regs = s.regs := rfl
@[simp] theorem skipUnknown_pc (b : Byte) (s : State) : (skipUnknown b s).pc = s.pc + 1 := rfl
@[simp] theorem skipUnknown_run (b : Byte) (s : State) : (skipUnknown b s).run = s.run := rfl
@[simp] theorem skipUnknown_fault (b : Byte) (s : State) : (skipUnknown b s).fault = s.fault := rfl
@[simp] theorem skipUnknown_mem (b : Byte) (s : State) : (skipUnknown b s).mem = s.mem := rfl
@[simp] theorem skipUnknown_events (b : Byte) (s : State) :
    (skipUnknown b s).events = s.events ++ [.diag b] := rfl

@[simp] theorem commit_ok (s t : State) : commit s (.ok t) = .next t := rfl
@[simp] theorem commit_error (s : State) (c : FaultCause) : commit s (.error c) = .next (raise c s) := rfl

end Sys2Proof.Machine
end

