-- ==== Sys2Proof/Laws/Ops.lean ====
section
/-! SUPPORT. One lemma for what each shared operation can do. -/

namespace Sys2Proof.Machine

/-! ## Memory accesses -/

theorem memRead_inside {addr : Nat} {s : State} (h : addr < s.params.memSize) :
    memRead addr s = .ok (Memory.read s.mem addr) := if_neg (Nat.not_le.2 h)

theorem memRead_outside {addr : Nat} {s : State} (h : s.params.memSize ≤ addr) :
    memRead addr s = .error (.outOfBoundsMem addr) := if_pos h

theorem memRead_eq_ok {addr : Nat} {s : State} {v : Byte} :
    memRead addr s = .ok v ↔ addr < s.params.memSize ∧ Memory.read s.mem addr = v := by
  rcases Nat.lt_or_ge addr s.params.memSize with h | h
  · rw [memRead_inside h]; simp [h]
  · rw [memRead_outside h]; simp [Nat.not_lt.2 h]

theorem memRead_eq_error {addr : Nat} {s : State} {c : FaultCause} :
    memRead addr s = .error c ↔ s.params.memSize ≤ addr ∧ c = .outOfBoundsMem addr := by
  rcases Nat.lt_or_ge addr s.params.memSize with h | h
  · rw [memRead_inside h]; simp [Nat.not_le.2 h]
  · rw [memRead_outside h]; simp [h, eq_comm]

/-- `memRead` depends on the size and the contents of memory alone. -/
theorem memRead_congr {s t : State} (hp : t.params = s.params) (hm : t.mem = s.mem) (addr : Nat) :
    memRead addr t = memRead addr s := by
  simp only [memRead, hp, hm]

theorem memWrite_inside {addr : Nat} {s : State} (v : Byte) (h : addr < s.params.memSize) :
    memWrite addr v s = .ok { s with mem := Memory.write s.mem addr v } := if_neg (Nat.not_le.2 h)

theorem memWrite_outside {addr : Nat} {s : State} (v : Byte) (h : s.params.memSize ≤ addr) :
    memWrite addr v s = .error (.outOfBoundsMem addr) := if_pos h

/-- Storing bytes changes memory alone. -/
theorem storeBytes_fields (vs : List Byte) (addr : Nat) (s : State) :
    storeBytes addr vs s = { s with mem := (storeBytes addr vs s).mem } := by
  induction vs generalizing addr s with
  | nil => rfl
  | cons v vs ih =>
    rcases Nat.lt_or_ge addr s.params.memSize with h | h
    · simp only [storeBytes, memWrite_inside v h]
      exact ih _ _
    · simp only [storeBytes, memWrite_outside v h]
      exact ih _ _

@[simp] theorem storeBytes_params (vs : List Byte) (addr : Nat) (s : State) :
    (storeBytes addr vs s).params = s.params := by rw [storeBytes_fields]
@[simp] theorem storeBytes_regs (vs : List Byte) (addr : Nat) (s : State) :
    (storeBytes addr vs s).regs = s.regs := by rw [storeBytes_fields]
@[simp] theorem storeBytes_pc (vs : List Byte) (addr : Nat) (s : State) :
    (storeBytes addr vs s).pc = s.pc := by rw [storeBytes_fields]
@[simp] theorem storeBytes_run (vs : List Byte) (addr : Nat) (s : State) :
    (storeBytes addr vs s).run = s.run := by rw [storeBytes_fields]
@[simp] theorem storeBytes_fault (vs : List Byte) (addr : Nat) (s : State) :
    (storeBytes addr vs s).fault = s.fault := by rw [storeBytes_fields]
@[simp] theorem storeBytes_events (vs : List Byte) (addr : Nat) (s : State) :
    (storeBytes addr vs s).events = s.events := by rw [storeBytes_fields]

theorem storeBytes_wf (vs : List Byte) (addr : Nat) {s : State} (h : Memory.wf s.mem) :
    Memory.wf (storeBytes addr vs s).mem := by
  induction vs generalizing addr s with
  | nil => exact h
  | cons v vs ih =>
    rcases Nat.lt_or_ge addr s.params.memSize with ha | ha
    · simp only [storeBytes, memWrite_inside v ha]
      exact ih _ (Memory.wf_write addr v h)
    · simp only [storeBytes, memWrite_outside v ha]
      exact ih _ h

theorem storeBytes_inside (vs : List Byte) (addr : Nat) {s : State}
    (h : ∀ c ∈ s.mem, c.1 < s.params.memSize) :
    ∀ c ∈ (storeBytes addr vs s).mem, c.1 < s.params.memSize := by
  induction vs generalizing addr s with
  | nil => exact h
  | cons v vs ih =>
    rcases Nat.lt_or_ge addr s.params.memSize with ha | ha
    · simp only [storeBytes, memWrite_inside v ha]
      refine ih (addr + 1) (s := { s with mem := Memory.write s.mem addr v }) fun c hc => ?_
      rcases Memory.mem_write_cases hc with hc | hc
      · exact hc ▸ ha
      · exact h c hc
    · simp only [storeBytes, memWrite_outside v ha]
      exact ih _ h

/-- Reading after bytes were stored: the byte stored there if its cell exists, else what was there before. -/
theorem read_storeBytes (vs : List Byte) (addr : Nat) {s : State} (hm : Memory.wf s.mem) (a : Nat) :
    Memory.read (storeBytes addr vs s).mem a =
      if h : addr ≤ a ∧ a < addr + vs.length ∧ a < s.params.memSize then vs[a - addr]
      else Memory.read s.mem a := by
  induction vs generalizing addr s with
  | nil =>
    rw [dif_neg]
    · rfl
    · simp only [List.length_nil]; omega
  | cons v vs ih =>
    have hlen : (v :: vs).length = vs.length + 1 := rfl
    rcases Nat.lt_or_ge addr s.params.memSize with ha | ha
    · simp only [storeBytes, memWrite_inside v ha]
      rw [ih (addr + 1) (Memory.wf_write addr v hm)]
      by_cases h : addr + 1 ≤ a ∧ a < addr + 1 + vs.length ∧ a < s.params.memSize
      · rw [dif_pos h, dif_pos ⟨by omega, by omega, h.2.2⟩]
        simp only [show a - addr = (a - (addr + 1)) + 1 from by omega, List.getElem_cons_succ]
      · rw [dif_neg h, Memory.read_write hm]
        by_cases hx : a = addr
        · subst hx
          rw [if_pos rfl, dif_pos ⟨le_rfl, by omega, ha⟩]
          simp
        · rw [if_neg hx, dif_neg]
          rintro ⟨h1, h2, h3⟩
          exact h ⟨by omega, by omega, h3⟩
    · simp only [storeBytes, memWrite_outside v ha]
      rw [ih (addr + 1) hm, dif_neg, dif_neg]
      · rintro ⟨h1, h2, h3⟩; omega
      · rintro ⟨h1, h2, h3⟩; omega

/-! ## Registers -/

theorem regRead_valid {i : Byte} (s : State) (h : i.toNat < 8) : regRead i s = .ok s.regs[i.toNat] := dif_pos h

theorem regRead_invalid {i : Byte} (s : State) (h : ¬ i.toNat < 8) :
    regRead i s = .error (.outOfBoundsReg i) := dif_neg h

theorem regWrite_valid {i : Byte} (v : Byte) (s : State) (h : i.toNat < 8) :
    regWrite i v s = .ok { s with regs := s.regs.set i.toNat v } := dif_pos h

theorem regWrite_invalid {i : Byte} (v : Byte) (s : State) (h : ¬ i.toNat < 8) :
    regWrite i v s = .error (.outOfBoundsReg i) := dif_neg h

/-- `regRead` depends on the Register File alone. -/
theorem regRead_congr {s t : State} (h : t.regs = s.regs) (i : Byte) : regRead i t = regRead i s := by
  simp only [regRead, h]

/-- Reading after a register was written. -/
theorem regRead_set {i : Byte} (v : Byte) {s t : State} (h : i.toNat < 8)
    (ht : t.regs = s.regs.set i.toNat v) (j : Byte) :
    regRead j t = if j = i then .ok v else regRead j s := by
  by_cases hj : j.toNat < 8
  · rw [regRead_valid t hj, regRead_valid s hj]
    by_cases hji : j = i
    · subst hji; simp [ht]
    · have : i.toNat ≠ j.toNat := fun h' => hji (BitVec.eq_of_toNat_eq h'.symm)
      simp [hji, ht, Vector.getElem_set_ne _ _ this]
  · have hji : j ≠ i := fun h' => hj (h' ▸ h)
    rw [if_neg hji, regRead_invalid t hj, regRead_invalid s hj]

/-! ## The ALU -/

theorem aluApply_bad_a (op : OpId) {a : Byte} (b : Byte) (s : State) (h : ¬ a.toNat < 8) :
    aluApply op a b s = .error (.outOfBoundsReg a) := by
  simp [aluApply, regRead_invalid s h, bind, Except.bind]

theorem aluApply_bad_b (op : OpId) {a b : Byte} (s : State) (ha : a.toNat < 8) (hb : ¬ b.toNat < 8) :
    aluApply op a b s = .error (.outOfBoundsReg b) := by
  simp [aluApply, regRead_valid s ha, regRead_invalid s hb, bind, Except.bind]

/-- On two valid indices the ALU writes its result to `x[a]`, or reports the operation it does not have. -/
theorem aluApply_valid (op : OpId) {a b : Byte} (s : State) (ha : a.toNat < 8) (hb : b.toNat < 8) :
    aluApply op a b s = (aluResult op s.regs[a.toNat] s.regs[b.toNat]).map
      fun v => { s with regs := s.regs.set a.toNat v } := by
  simp only [aluApply, regRead_valid s ha, regRead_valid s hb, bind, Except.bind]
  cases aluResult op s.regs[a.toNat] s.regs[b.toNat] with
  | error c => rfl
  | ok v => simp [regWrite_valid v s ha, Except.map]

theorem narrow_toNat (n : Nat) : (narrow n).toNat = n % 256 := by simp [narrow]

end Sys2Proof.Machine
end

