-- ==== Sys2Proof/Laws/PerInstr.lean ====
section
/-! SUPPORT. Statements made for every instruction, one lemma per constructor: the shape of its encoding
(30_encoding.md R50, R52, R56). -/

namespace Sys2Proof.Laws.EncodingShape

/-- The encoding is the operation's opcode byte followed by the operand bytes, has the operation's length, and its first
byte is looked up to the operation. -/
def Statement (i : Instr) : Prop :=
  (encode i).length = i.operation.length ∧ (encode i).head? = some (opcodeByte i.operation) ∧
    (encode i).tail = operandBytes i ∧ decodeOp (opcodeByte i.operation) = some i.operation

theorem ldi (r imm : Byte) : Statement (.ldi r imm) := ⟨rfl, rfl, rfl, decodeOp_opcodeByte _⟩
theorem prn (r : Byte) : Statement (.prn r) := ⟨rfl, rfl, rfl, decodeOp_opcodeByte _⟩
theorem mul (a b : Byte) : Statement (.mul a b) := ⟨rfl, rfl, rfl, decodeOp_opcodeByte _⟩
theorem hlt : Statement .hlt := ⟨rfl, rfl, rfl, decodeOp_opcodeByte _⟩

end Sys2Proof.Laws.EncodingShape
end

