-- ==== Sys2Proof/Laws/Step.lean ====
section
/-! SUPPORT. What the fetch, each meaning and a step can do, each said once. -/

namespace Sys2Proof.Machine

/-! ## The meanings -/

theorem execLdi_valid {r : Byte} (imm : Byte) (s : State) (h : r.toNat < 8) :
    execLdi r imm s = .next (advance 3 { s with regs := s.regs.set r.toNat imm }) := by
  simp [execLdi, regWrite_valid imm s h, bind, Except.bind, pure, Except.pure]

theorem execLdi_invalid {r : Byte} (imm : Byte) (s : State) (h : ¬ r.toNat < 8) :
    execLdi r imm s = .next (raise (.outOfBoundsReg r) s) := by
  simp [execLdi, regWrite_invalid imm s h, bind, Except.bind]

theorem execPrn_valid {r : Byte} (s : State) (h : r.toNat < 8) :
    execPrn r s = .next (advance 2 (emit (.print s.regs[r.toNat]) s)) := by
  simp [execPrn, regRead_valid s h, bind, Except.bind, pure, Except.pure]

theorem execPrn_invalid {r : Byte} (s : State) (h : ¬ r.toNat < 8) :
    execPrn r s = .next (raise (.outOfBoundsReg r) s) := by
  simp [execPrn, regRead_invalid s h, bind, Except.bind]

theorem execMul_valid {a b : Byte} (s : State) (ha : a.toNat < 8) (hb : b.toNat < 8) :
    execMul a b s = .next (advance 3
      { s with regs := s.regs.set a.toNat (narrow (s.regs[a.toNat].toNat * s.regs[b.toNat].toNat)) }) := by
  simp [execMul, aluApply_valid _ s ha hb, aluResult, Except.map, bind, Except.bind, pure, Except.pure]

theorem execMul_bad_a {a : Byte} (b : Byte) (s : State) (h : ¬ a.toNat < 8) :
    execMul a b s = .next (raise (.outOfBoundsReg a) s) := by
  simp [execMul, aluApply_bad_a _ b s h, bind, Except.bind]

theorem execMul_bad_b {a b : Byte} (s : State) (ha : a.toNat < 8) (hb : ¬ b.toNat < 8) :
    execMul a b s = .next (raise (.outOfBoundsReg b) s) := by
  simp [execMul, aluApply_bad_b _ s ha hb, bind, Except.bind]

/-- What an executed instruction does to a state, one case per outcome. -/
inductive ExecEffect (s : State) : Instr → State → Prop where
  | ldi {r imm : Byte} (h : r.toNat < 8) :
      ExecEffect s (.ldi r imm) (advance 3 { s with regs := s.regs.set r.toNat imm })
  | prn {r : Byte} (h : r.toNat < 8) :
      ExecEffect s (.prn r) (advance 2 (emit (.print s.regs[r.toNat]) s))
  | mul {a b : Byte} (ha : a.toNat < 8) (hb : b.toNat < 8) :
      ExecEffect s (.mul a b) (advance 3
        { s with regs := s.regs.set a.toNat (narrow (s.regs[a.toNat].toNat * s.regs[b.toNat].toNat)) })
  | hlt : ExecEffect s .hlt (halt s)
  | ldiBad {r imm : Byte} (h : ¬ r.toNat < 8) : ExecEffect s (.ldi r imm) (raise (.outOfBoundsReg r) s)
  | prnBad {r : Byte} (h : ¬ r.toNat < 8) : ExecEffect s (.prn r) (raise (.outOfBoundsReg r) s)
  | mulBadA {a b : Byte} (h : ¬ a.toNat < 8) : ExecEffect s (.mul a b) (raise (.outOfBoundsReg a) s)
  | mulBadB {a b : Byte} (ha : a.toNat < 8) (hb : ¬ b.toNat < 8) :
      ExecEffect s (.mul a b) (raise (.outOfBoundsReg b) s)

/-- Every instruction answers a next state, with one of those effects. -/
theorem exec_effect (i : Instr) (s : State) : ∃ t, exec i s = .next t ∧ ExecEffect s i t := by
  cases i with
  | ldi r imm =>
    by_cases h : r.toNat < 8
    · exact ⟨_, execLdi_valid imm s h, .ldi h⟩
    · exact ⟨_, execLdi_invalid imm s h, .ldiBad h⟩
  | prn r =>
    by_cases h : r.toNat < 8
    · exact ⟨_, execPrn_valid s h, .prn h⟩
    · exact ⟨_, execPrn_invalid s h, .prnBad h⟩
  | mul a b =>
    by_cases ha : a.toNat < 8
    · by_cases hb : b.toNat < 8
      · exact ⟨_, execMul_valid s ha hb, .mul ha hb⟩
      · exact ⟨_, execMul_bad_b s ha hb, .mulBadB ha hb⟩
    · exact ⟨_, execMul_bad_a b s ha, .mulBadA ha⟩
  | hlt => exact ⟨_, rfl, .hlt⟩

/-- If `exec` answers `t`, then `t` is the effect of the instruction. -/
theorem exec_cases {i : Instr} {s t : State} (h : exec i s = .next t) : ExecEffect s i t := by
  obtain ⟨t', h', he⟩ := exec_effect i s
  rw [h'] at h
  cases h
  exact he

/-! ## Fetch -/

/-- Everything the fetch can do. A fault reports the first byte of the instruction that does not exist. -/
theorem fetch_cases (s : State) :
    (s.params.memSize ≤ s.pc ∧ fetch s = .error (.outOfBoundsMem s.pc)) ∨
    (∃ b, memRead s.pc s = .ok b ∧ decodeOp b = none ∧ fetch s = .ok (.unknown b)) ∨
    (∃ o k, memRead s.pc s = .ok (opcodeByte o) ∧ 0 < k ∧ k < o.length ∧
      s.pc + k = s.params.memSize ∧ fetch s = .error (.outOfBoundsMem (s.pc + k))) ∨
    (∃ i, s.pc + i.operation.length ≤ s.params.memSize ∧
      (∀ k (h : k < (encode i).length), memRead (s.pc + k) s = .ok (encode i)[k]) ∧
      fetch s = .ok (.instr i)) := by
  rcases decodeFrom_cases (instrByte s) with ⟨e, h0, h⟩ | ⟨b, h0, hb, h⟩ | ⟨o, k, e, h0, hk, hko, hj, he, h⟩ | ⟨i, hi, h⟩
  · obtain ⟨h1, rfl⟩ := memRead_eq_error.1 h0
    exact .inl ⟨h1, h⟩
  · exact .inr (.inl ⟨b, h0, hb, h⟩)
  · obtain ⟨h1, rfl⟩ := memRead_eq_error.1 he
    obtain ⟨b, hb⟩ := hj (k - 1) (by omega)
    have := (memRead_eq_ok.1 hb).1
    exact .inr (.inr (.inl ⟨o, k, h0, hk, hko, by omega, h⟩))
  · refine .inr (.inr (.inr ⟨i, ?_, hi, h⟩))
    have hl := operation_length_bounds i.operation
    have := (memRead_eq_ok.1 (hi (i.operation.length - 1) (by rw [encode_length]; omega))).1
    omega

/-- Where the bytes at the PC are an instruction's encoding, the fetch gives that instruction. -/
theorem fetch_encode {s : State} {i : Instr}
    (h : ∀ k (hk : k < (encode i).length), memRead (s.pc + k) s = .ok (encode i)[k]) :
    fetch s = .ok (.instr i) := decodeFrom_encode h

/-! ## The step -/

theorem noStep_running {s : State} : noStep s = none ↔ s.run = .running := by
  unfold noStep
  cases s.run <;> simp

theorem step_running {s : State} (h : s.run = .running) : step s = afterFetch s (fetch s) := by
  simp only [step, noStep_running.2 h]

@[simp] theorem afterFetch_error (s : State) (c : FaultCause) :
    afterFetch s (.error c) = .next (raise c s) := rfl
@[simp] theorem afterFetch_unknown (s : State) (op : Byte) :
    afterFetch s (.ok (.unknown op)) = .next (skipUnknown op s) := rfl
@[simp] theorem afterFetch_instr (s : State) (i : Instr) : afterFetch s (.ok (.instr i)) = exec i s := rfl

/-- Everything a step of a RUNNING machine can do. -/
inductive StepEffect (s : State) : State → Prop where
  /-- A byte of the instruction does not exist. -/
  | fetchFault {k : Nat} (hk : k ≤ 2) (hbound : s.params.memSize ≤ s.pc + k)
      (hfirst : k = 0 ∨ s.pc + k = s.params.memSize)
      (hop : k ≠ 0 → ∃ o, memRead s.pc s = .ok (opcodeByte o) ∧ k < o.length) :
      StepEffect s (raise (.outOfBoundsMem (s.pc + k)) s)
  /-- An unknown opcode byte is skipped. -/
  | skip {b : Byte} (hb : memRead s.pc s = .ok b) (hop : decodeOp b = none) :
      StepEffect s (skipUnknown b s)
  /-- An instruction is executed. -/
  | exec {i : Instr} {t : State} (hlen : s.pc + i.operation.length ≤ s.params.memSize)
      (hbytes : ∀ k (h : k < (encode i).length), memRead (s.pc + k) s = .ok (encode i)[k])
      (heff : ExecEffect s i t) : StepEffect s t

/-- A RUNNING machine has a next state, with one of those effects. -/
theorem step_effect {s : State} (h : s.run = .running) : ∃ t, step s = .next t ∧ StepEffect s t := by
  rw [step_running h]
  rcases fetch_cases s with ⟨h1, hf⟩ | ⟨b, hb, ho, hf⟩ | ⟨o, k, h0, hk, hko, heq, hf⟩ | ⟨i, hl, hb, hf⟩
  · exact ⟨_, by rw [hf]; rfl, StepEffect.fetchFault (k := 0) (by omega) h1 (.inl rfl) (by simp)⟩
  · exact ⟨_, by rw [hf]; rfl, .skip hb ho⟩
  · have := operation_length_bounds o
    exact ⟨_, by rw [hf]; rfl, .fetchFault (by omega) (by omega) (.inr heq) fun _ => ⟨o, h0, hko⟩⟩
  · obtain ⟨t, ht, he⟩ := exec_effect i s
    exact ⟨t, by rw [hf]; exact ht, .exec hl hb he⟩

/-- If a step answers `t`, the machine was RUNNING and `t` is one of those effects. -/
theorem step_cases {s t : State} (h : step s = .next t) : s.run = .running ∧ StepEffect s t := by
  have hr : s.run = .running := by
    cases hn : noStep s with
    | none => exact noStep_running.1 hn
    | some f => simp [step, hn] at h
  obtain ⟨t', h', he⟩ := step_effect hr
  rw [h'] at h
  cases h
  exact ⟨hr, he⟩

end Sys2Proof.Machine
end

