-- ==== Sys2Proof/Tests/Slice0.lean ====
section
/-! SUPPORT. Tests, each expected result taken from spec/95_test_vectors.md or worked by hand from the rule named; and,
for every statement with hypotheses, a concrete state and operands that meet them all (witness_<statement>), one clause at
a time where it has several. Nothing here runs more than one step. -/

namespace Sys2Proof.Machine.Tests

/-! ## Helpers -/

/-- The reset state with another PC and other memory contents. -/
def stateAt (pc : Nat) (mem : Memory) : State := { State.reset with pc := pc, mem := mem }

/-- A state whose registers are `v0`, `v1` and six zeros. -/
def withRegs (v0 v1 : Byte) (s : State) : State := { s with regs := #v[v0, v1, 0, 0, 0, 0, 0, 0] }

/-- A state of a machine of 512 cells. -/
def in512 (s : State) : State := { s with params := { s.params with memSize := 512 } }

/-- The next state of an outcome, if it has one. -/
def nextOf : Host.Outcome State Fault Refusal → Option State
  | .next t => some t
  | .fault _ => none
  | .refused _ => none

/-- The fault of an outcome, if it is one. -/
def faultOf : Host.Outcome State Fault Refusal → Option Fault
  | .next _ => none
  | .fault f => some f
  | .refused _ => none

/-- The refusal of an outcome, if it is one. -/
def refusalOf : Host.Outcome State Fault Refusal → Option Refusal
  | .next _ => none
  | .fault _ => none
  | .refused r => some r

/-! ## Well-formedness: an ill-formed term for each check -/

theorem test_wf_refuses_ldi_index : Instr.wellFormed (.ldi 8 1) = false := by decide
theorem test_wf_refuses_prn_index : Instr.wellFormed (.prn 255) = false := by decide
theorem test_wf_refuses_mul_first_index : Instr.wellFormed (.mul 8 1) = false := by decide
theorem test_wf_refuses_mul_second_index : Instr.wellFormed (.mul 0 9) = false := by decide
theorem test_wf_accepts_top_index : Instr.wellFormed (.mul 7 7) = true := by decide

/-! ## Decoding: words written out from the encodings of 30_encoding.md R52 and R63 -/

theorem test_decode_ldi : decode [0b10000010, 0b00000001, 0b00001001] = .ok (.instr (.ldi 1 9)) := by decide
theorem test_decode_prn : decode [0b01000111, 0b00000000] = .ok (.instr (.prn 0)) := by decide
theorem test_decode_mul : decode [0b10100010, 0b00000010, 0b00000001] = .ok (.instr (.mul 2 1)) := by decide
theorem test_decode_hlt : decode [0b00000001] = .ok (.instr .hlt) := by decide
theorem test_decode_illegal_index_still_decodes :
    decode [0x82, 0x08, 0x01] = .ok (.instr (.ldi 8 1)) := by decide
theorem test_decode_missing_operand : decode [0x82, 0x08] = .error (.missingByte 2) := by decide
theorem test_decode_unknown_bytes :
    ([0x00, 0x02, 0x46, 0x48, 0x81, 0x83, 0xA0, 0xA1, 0xA3, 0xFF] : List Byte).all
      (fun b => decodeOp b == none) = true := by decide
theorem test_encode_ldi : encode (.ldi 1 9) = [0b10000010, 0b00000001, 0b00001001] := by decide
theorem test_tableWord_ldi : decodeTableWord 24 0x080082 = some (.ldi 0 8) := by decide
theorem test_tableWord_zero_operands : decodeTableWord 8 0xA2 = some (.mul 0 0) := by decide
theorem test_tableWord_cuts_at_nbits : decodeTableWord 8 0x050747 = some (.prn 0) := by decide
theorem test_tableWord_unknown : decodeTableWord 8 0xA0 = none := by decide
theorem test_fetchWord_runs_first :
    (nextOf (step (State.reset.withFetchWord 24 0x080082))).map (fun t => (t.regs[0], t.pc)) = some (8, 3) := by
  decide

/-! ## One step each (95_test_vectors.md part 2) -/

/-- LD8: an LDI in the last three cells leaves the PC one past the end. -/
theorem test_ldi_at_the_top : nextOf (step (stateAt 253 [(253, 0x82), (255, 0x2A)])) =
    some { stateAt 256 [(253, 0x82), (255, 0x2A)] with regs := #v[42, 0, 0, 0, 0, 0, 0, 0] } := by decide
/-- LD11: the missing byte is reported before the bad index. -/
theorem test_ldi_memory_before_register : nextOf (step (stateAt 254 [(254, 0x82), (255, 9)])) =
    some { stateAt 254 [(254, 0x82), (255, 9)] with
      run := .faulted, fault := some ⟨.outOfBoundsMem 256, 254⟩ } := by decide
/-- PR7: a PRN in the last two cells. -/
theorem test_prn_at_the_top :
    (nextOf (step (withRegs 1 0 (stateAt 254 [(254, 0x47)])))).map (fun t => (t.events, t.pc, t.run)) =
    some ([.print 1], 256, .running) := by decide
/-- PR6: index 8 names no register; no event. -/
theorem test_prn_bad_index :
    (nextOf (step (stateAt 0 [(0, 0x47), (1, 8)]))).map (fun t => (t.events, t.fault, t.pc)) =
    some ([], some ⟨.outOfBoundsReg 8, 0⟩, 0) := by decide
/-- MU8: the destination is the first operand. -/
theorem test_mul_destination :
    (nextOf (step (withRegs 9 8 (stateAt 0 [(0, 0xA2), (1, 1)])))).map (fun t => (t.regs[0], t.regs[1], t.pc)) =
    some (9, 72, 3) := by decide
/-- MU4's product, on registers 0 and 1: 65025 mod 256. -/
theorem test_mul_wraps :
    (nextOf (exec (.mul 0 1) (withRegs 255 255 State.reset))).map (fun t => (t.regs[0], t.regs[1])) =
    some (1, 255) := by decide
/-- HL3: an HLT in the last cell. -/
theorem test_hlt_in_the_last_cell : nextOf (step (stateAt 255 [(255, 0x01)])) =
    some { stateAt 255 [(255, 0x01)] with run := .halted } := by decide
/-- HL4: no step exists in HALTED. -/
theorem test_no_step_after_hlt : faultOf (step { State.reset with run := .halted }) = some .stepAfterHalt := by decide
/-- UK4: `0x83` advances by 1 although bits 7:6 are `10`. -/
theorem test_unknown_advances_by_one : nextOf (step (stateAt 0 [(0, 0x83), (2, 0x08)])) =
    some { stateAt 1 [(0, 0x83), (2, 0x08)] with events := [.diag 0x83] } := by decide
/-- FF2: the fetch fault of a memory of 512 cells. -/
theorem test_fetch_fault_512 : nextOf (step (in512 (stateAt 512 []))) =
    some { in512 (stateAt 512 []) with run := .faulted, fault := some ⟨.outOfBoundsMem 512, 512⟩ } := by decide
/-- FF3: address 256 is ordinary in a memory of 512 cells. -/
theorem test_address_256_of_512 :
    (nextOf (step (in512 (stateAt 256 [(256, 0x01)])))).map (fun t => (t.run, t.pc)) = some (.halted, 256) := by decide
/-- AD2: the ALU's ADD wraps. -/
theorem test_add_wraps : (aluApply .add 0 1 (withRegs 200 100 State.reset)).map (fun t => (t.regs[0], t.regs[1])) =
    .ok (44, 100) := by decide
/-- R95, rows 200 * 100 and 13 * 20. -/
theorem test_exact_products : aluResult (.decoded .mul) 200 100 = .ok 32 ∧ aluResult (.decoded .mul) 13 20 = .ok 4 := by
  decide
/-- R94: the ALU handed HLT. -/
theorem test_alu_unsupported : aluApply (.decoded .hlt) 0 1 State.reset = .error (.unsupportedOperation (.decoded .hlt)) := by
  decide

/-! ## Memory, loader, console, assembler -/

theorem test_memory_zero_removes : Memory.write [(3, 7), (5, 9)] 3 0 = [(5, 9)] := by decide
theorem test_memory_write_sorts : Memory.write [(3, 7), (9, 1)] 5 2 = [(3, 7), (5, 2), (9, 1)] := by decide
/-- S1's first bytes, loaded from address 0. -/
theorem test_launch_loads : (nextOf (launch Config.defaults [0x82, 0, 8, 0x01])).map (fun s => (s.mem, s.pc)) =
    some ([(0, 0x82), (2, 8), (3, 0x01)], 0) := by decide
theorem test_launch_refuses_small_memory :
    refusalOf (launch { Config.defaults with memSize := 255 } []) = some .parametersNotAdmitted := by decide
/-- R63, the image line of address 0, and the two skipped kinds of R62. -/
theorem test_image : parseImage
    [['#', ' ', 'p'], [], ['1', '0', '0', '0', '0', '0', '1', '0', ' ', '#', ' ', 'L'], ['0', '0', '0', '0', '0', '0', '0', '0']] =
    some [0x82, 0] := by decide
theorem test_image_malformed : parseLine ['1', '2'] = .malformed ∧ parseLine ['1', '0', '0', '0', '0', '0', '0', '0', '0'] = .malformed := by
  decide
/-- PR1, PR2, PR5. -/
theorem test_numerals : decimalNumeral 72 = ['7', '2'] ∧ decimalNumeral 0 = ['0'] ∧ decimalNumeral 100 = ['1', '0', '0'] := by
  decide
theorem test_stdout : stdout { State.reset with events := [.print 0, .diag 0, .print 72] } = ['0', '\n', '7', '2', '\n'] := by
  decide
/-- S1's notation. -/
theorem test_assembler_text : AsmLine.text (.instr (.ldi 0 8)) = ['L', 'D', 'I', ' ', 'R', '0', ',', '8'] ∧
    AsmLine.text (.instr (.mul 0 1)) = ['M', 'U', 'L', ' ', 'R', '0', ',', 'R', '1'] := by decide
/-- P9: decoded from address 0 and, in the middle of the LDI, from address 2. -/
theorem test_disassembly_depends_on_the_start :
    disassemble 8 [0, 0x82, 1, 1, 0x47, 1, 1] = [.byte 0, .instr (.ldi 1 1), .instr (.prn 1), .instr .hlt] ∧
    disassemble 8 [1, 1, 0x47, 1, 1] = [.instr .hlt, .instr .hlt, .instr (.prn 1), .instr .hlt] := by decide

/-! ## Witnesses: states that meet the hypotheses of the statements -/

/-- A concrete RUNNING state meets the invariant when its plain data does. -/
theorem running_inv {s : State} (h1 : s.params.wf) (h2 : s.pc ≤ s.params.memSize) (h3 : Memory.wf s.mem)
    (h4 : ∀ c ∈ s.mem, c.1 < s.params.memSize) (h5 : s.fault = none) (h6 : s.run = .running) : MachineInv s where
  params_wf := h1
  pc_le := h2
  mem_wf := h3
  mem_inside := h4
  fault_iff := by simp [h5, h6]
  fault_at := by simp [h5]
  halted_at := by simp [h6]

theorem witness_ResetHoldsTheGivenValues : (7 : Byte).toNat ≤ 7 ∧ 255 < Config.defaults.memSize := by decide

/-- Lengths 256 and 257 in the default memory, a memory of 255 cells, and an empty line terminator. -/
theorem witness_LaunchStoresTheProgramFromAddressZero :
    Config.defaults.wf ∧ (List.replicate 256 (1 : Byte)).length ≤ Config.defaults.memSize ∧
    Config.defaults.memSize < (List.replicate 257 (1 : Byte)).length ∧ 0 < [(1 : Byte)].length ∧
    [(1 : Byte)].length ≤ 255 ∧ 255 < Config.defaults.memSize ∧
    ({ Config.defaults with memSize := 255 } : Config.Params).memSize < 256 ∧
    ({ Config.defaults with lineTerminator := [] } : Config.Params).lineTerminator = [] := by
  refine ⟨by decide, ?_, ?_, by decide, by decide, by decide, by decide, rfl⟩ <;> rw [List.length_replicate] <;> decide

/-- Each kind of content with blanks around it and a comment behind: none, the values 255 and 256, and a `2` among bits; an
image with no malformed line, and a malformed line. -/
theorem witness_ImageLinesGiveTheirBytes :
    (∀ c ∈ [' ', '\t'], isBlank c = true) ∧ isTail [] ∧ isTail ['#', 'x'] ∧
    isContent [] ∧
    (isContent ['1', '1', '1', '1', '1', '1', '1', '1'] ∧ (∀ c ∈ ['1', '1', '1', '1', '1', '1', '1', '1'], c = '0' ∨ c = '1') ∧
      base2Value ['1', '1', '1', '1', '1', '1', '1', '1'] = 255) ∧
    (isContent ['1', '0', '0', '0', '0', '0', '0', '0', '0'] ∧
      (∀ c ∈ ['1', '0', '0', '0', '0', '0', '0', '0', '0'], c = '0' ∨ c = '1') ∧
      base2Value ['1', '0', '0', '0', '0', '0', '0', '0', '0'] = 256) ∧
    (isContent ['1', '2'] ∧ '2' ∈ ['1', '2'] ∧ '2' ≠ '0' ∧ '2' ≠ '1') ∧
    (∀ line ∈ [['#'], [], ['0', '1']], parseLine line ≠ .malformed) ∧ parseLine ['2'] = .malformed := by
  refine ⟨by simp [isBlank], .inl rfl, .inr ⟨_, rfl⟩, ?_, ⟨?_, by simp, by decide⟩, ⟨?_, by simp, by decide⟩,
    ⟨?_, by simp, by decide, by decide⟩, by decide, by decide⟩ <;>
  exact ⟨fun c h => by cases h <;> rfl, fun c h => by cases h <;> rfl, by simp⟩

theorem witness_DecodeInvertsEncode : 8 * (Instr.ldi 255 255).operation.length ≤ 24 := by decide

theorem witness_DecodedBytesAreTheEncoding :
    decode [0x82, 255, 255] = .ok (.instr (.ldi 255 255)) ∧ decode [0xA0] = .ok (.unknown 0xA0) ∧
    decode [0xA2, 0] = .error (.missingByte 2) ∧ decode [] = .error (.missingByte 0) := by decide

theorem witness_DisassemblyRecoversTheLines :
    ∀ v, AsmLine.byte v ∈ [AsmLine.byte 0, .instr (.ldi 1 1), .instr .hlt] → decodeOp v = none := by
  intro v h
  obtain rfl : v = 0 := by simpa using h
  decide

theorem witness_OnlyMulReachesTheAlu :
    Instr.wellFormed (.mul 7 7) = true ∧ routedToAlu (.decoded (Instr.mul 7 7).operation) = true ∧
    Instr.wellFormed (.ldi 7 255) = true ∧ routedToAlu (.decoded (Instr.ldi 7 255).operation) = false ∧
    (7 : Byte).toNat ≤ 7 := by decide

theorem witness_StepRunsTheDecodedInstruction :
    (stateAt 253 [(253, 0x82), (255, 0x2A)]).run = .running ∧
    ∀ k (h : k < (encode (.ldi 0 42)).length),
      memRead (253 + k) (stateAt 253 [(253, 0x82), (255, 0x2A)]) = .ok (encode (.ldi 0 42))[k] := by decide

theorem witness_PlacedWordIsTheNextInstruction :
    MachineInv (stateAt 253 []) ∧ (stateAt 253 []).run = .running ∧ 253 + 3 ≤ (stateAt 253 []).params.memSize ∧
    decodeTableWord 24 0x2A0082 = some (.ldi 0 42) :=
  ⟨running_inv (by decide) (by decide) (by decide) (by decide) rfl rfl, by decide, by decide, by decide⟩

/-- The five clauses of LDI: index 7, index 8, opcode in the last cell, in the last but one, and in the last three. -/
theorem witness_LdiWritesTheImmediate :
    (7 : Byte).toNat ≤ 7 ∧ 7 < (8 : Byte).toNat ∧
    (memRead 255 (stateAt 255 [(255, 0x82)]) = .ok 0x82 ∧ (stateAt 255 [(255, 0x82)]).params.memSize ≤ 255 + 1) ∧
    (memRead 254 (stateAt 254 [(254, 0x82)]) = .ok 0x82 ∧ 254 + 1 < (stateAt 254 [(254, 0x82)]).params.memSize ∧
      (stateAt 254 [(254, 0x82)]).params.memSize ≤ 254 + 2) ∧
    (memRead 253 (stateAt 253 [(253, 0x82)]) = .ok 0x82 ∧ memRead 254 (stateAt 253 [(253, 0x82)]) = .ok 0 ∧
      memRead 255 (stateAt 253 [(253, 0x82)]) = .ok 0 ∧ (stateAt 253 [(253, 0x82)]).run = .running) := by decide

theorem witness_PrnEmitsTheRegister :
    (7 : Byte).toNat ≤ 7 ∧ 7 < (8 : Byte).toNat ∧
    (memRead 255 (stateAt 255 [(255, 0x47)]) = .ok 0x47 ∧ (stateAt 255 [(255, 0x47)]).params.memSize ≤ 255 + 1) ∧
    (memRead 254 (stateAt 254 [(254, 0x47)]) = .ok 0x47 ∧ memRead 255 (stateAt 254 [(254, 0x47)]) = .ok 0 ∧
      (stateAt 254 [(254, 0x47)]).run = .running) := by decide

theorem witness_MulWritesTheLowByteOfTheProduct :
    (7 : Byte).toNat ≤ 7 ∧ 7 < (8 : Byte).toNat ∧
    (memRead 255 (stateAt 255 [(255, 0xA2)]) = .ok 0xA2 ∧ (stateAt 255 [(255, 0xA2)]).params.memSize ≤ 255 + 1) ∧
    (memRead 254 (stateAt 254 [(254, 0xA2)]) = .ok 0xA2 ∧ 254 + 1 < (stateAt 254 [(254, 0xA2)]).params.memSize ∧
      (stateAt 254 [(254, 0xA2)]).params.memSize ≤ 254 + 2) ∧
    (memRead 253 (stateAt 253 [(253, 0xA2)]) = .ok 0xA2 ∧ memRead 254 (stateAt 253 [(253, 0xA2)]) = .ok 0 ∧
      memRead 255 (stateAt 253 [(253, 0xA2)]) = .ok 0 ∧ (stateAt 253 [(253, 0xA2)]).run = .running) := by decide

theorem witness_HltStopsWithThePcUnmoved :
    (stateAt 255 [(255, 0x01)]).run = .running ∧ memRead 255 (stateAt 255 [(255, 0x01)]) = .ok 0x01 := by decide

theorem witness_UnknownOpcodeIsSkipped :
    (stateAt 255 [(255, 0xA0)]).run = .running ∧ memRead 255 (stateAt 255 [(255, 0xA0)]) = .ok 0xA0 ∧
    (0xA0 : Byte) ≠ 0x01 ∧ (0xA0 : Byte) ≠ 0x47 ∧ (0xA0 : Byte) ≠ 0x82 ∧ (0xA0 : Byte) ≠ 0xA2 := by decide

theorem witness_FetchReadsTheByteAtThePcOrFaults :
    fetch (stateAt 255 [(255, 0xFF)]) = .ok (.unknown 0xFF) ∧ fetch (stateAt 255 [(255, 0x01)]) = .ok (.instr .hlt) ∧
    (stateAt 256 []).run = .running ∧ (stateAt 256 []).params.memSize ≤ 256 ∧ MachineInv (stateAt 256 []) :=
  ⟨by decide, by decide, by decide, by decide, running_inv (by decide) (by decide) (by decide) (by decide) rfl rfl⟩

theorem witness_RegisterAccessIsBoundsChecked : 7 < (8 : Byte).toNat ∧ (7 : Byte).toNat ≤ 7 := by decide

theorem witness_MemoryReadsWhatWasWritten :
    Memory.wf (stateAt 0 [(3, 7)]).mem ∧ (stateAt 0 [(3, 7)]).params.memSize ≤ 256 ∧
    255 < (stateAt 0 [(3, 7)]).params.memSize := by decide

theorem witness_EqualReadsMakeEqualMemory :
    MachineInv (stateAt 0 [(3, 7)]) ∧ MachineInv (stateAt 1 [(3, 7)]) ∧
    (stateAt 0 [(3, 7)]).params = (stateAt 1 [(3, 7)]).params ∧ SameMemory (stateAt 0 [(3, 7)]) (stateAt 1 [(3, 7)]) :=
  ⟨running_inv (by decide) (by decide) (by decide) (by decide) rfl rfl,
    running_inv (by decide) (by decide) (by decide) (by decide) rfl rfl, rfl, fun _ => rfl⟩

theorem witness_AluAppliesItsTwoOperations :
    7 < (8 : Byte).toNat ∧ (7 : Byte).toNat ≤ 7 ∧ OpId.decoded .hlt ≠ .add ∧ OpId.decoded .hlt ≠ .decoded .mul := by decide

theorem witness_CauseCodesAreNumbered : State.reset.run ≠ .faulted := by decide

theorem witness_ConsoleShowsShortestNumerals : State.reset.params.diagStream = .err := by decide

theorem witness_EventsShowOnTheirStream :
    State.reset.events = [] ∧ State.reset.params.diagStream = .err ∧
    ({ State.reset with params := { Config.defaults with diagStream := .out } } : State).params.diagStream = .out := by decide

/-- States of each kind: an HLT to run, a terminal one of each, and an instruction that answers a next state. -/
theorem witness_RunStateTransitions :
    (∃ t, step (stateAt 0 [(0, 0x01)]) = .next t) ∧ MachineInv (stateAt 0 [(0, 0x01)]) ∧
    ({ State.reset with run := .halted } : State).run = .halted ∧
    ({ State.reset with run := .faulted } : State).run = .faulted ∧ (∃ t, exec (.ldi 7 255) State.reset = .next t) :=
  ⟨⟨_, rfl⟩, running_inv (by decide) (by decide) (by decide) (by decide) rfl rfl, rfl, rfl, ⟨_, rfl⟩⟩

/-- One state for each outcome the PC and event rules tell apart. -/
theorem witness_PcAdvancesByTheOutcome :
    (∃ t, step (stateAt 255 [(255, 0x82)]) = .next t ∧ t.run = .faulted) ∧
    (∃ t, step (stateAt 253 [(253, 0x82)]) = .next t ∧ t.run ≠ .faulted ∧ opAtPc (stateAt 253 [(253, 0x82)]) = some .ldi) ∧
    (∃ t, step (stateAt 254 [(254, 0x47)]) = .next t ∧ t.run ≠ .faulted ∧ opAtPc (stateAt 254 [(254, 0x47)]) = some .prn) ∧
    (∃ t, step (stateAt 253 [(253, 0xA2)]) = .next t ∧ t.run ≠ .faulted ∧ opAtPc (stateAt 253 [(253, 0xA2)]) = some .mul) ∧
    (∃ t, step (stateAt 255 [(255, 0x01)]) = .next t ∧ t.run ≠ .faulted ∧ opAtPc (stateAt 255 [(255, 0x01)]) = some .hlt) ∧
    (∃ t, step (stateAt 255 [(255, 0xFF)]) = .next t ∧ t.run ≠ .faulted ∧ opAtPc (stateAt 255 [(255, 0xFF)]) = none) :=
  ⟨⟨_, rfl, by decide⟩, ⟨_, rfl, by decide, by decide⟩, ⟨_, rfl, by decide, by decide⟩, ⟨_, rfl, by decide, by decide⟩,
    ⟨_, rfl, by decide, by decide⟩, ⟨_, rfl, by decide, by decide⟩⟩

theorem witness_EventsAreAppendedInOrder :
    (∃ t, step (stateAt 255 [(255, 0x47)]) = .next t ∧ t.run = .faulted) ∧
    (∃ t, step (stateAt 254 [(254, 0x47)]) = .next t ∧ t.run ≠ .faulted ∧ opAtPc (stateAt 254 [(254, 0x47)]) = some .prn) ∧
    (∃ t, step (stateAt 255 [(255, 0xFF)]) = .next t ∧ t.run ≠ .faulted ∧ opAtPc (stateAt 255 [(255, 0xFF)]) = none) ∧
    (∃ t, step (stateAt 253 [(253, 0xA2)]) = .next t ∧ t.run ≠ .faulted ∧
      opAtPc (stateAt 253 [(253, 0xA2)]) ≠ some .prn ∧ opAtPc (stateAt 253 [(253, 0xA2)]) ≠ none) :=
  ⟨⟨_, rfl, by decide⟩, ⟨_, rfl, by decide, by decide⟩, ⟨_, rfl, by decide, by decide⟩,
    ⟨_, rfl, by decide, by decide, by decide⟩⟩

theorem witness_RunsNeverWriteMemory : ∃ t, step (stateAt 253 [(253, 0xA2)]) = .next t := ⟨_, rfl⟩

theorem witness_OnlyLdiAndMulChangeRegisters :
    ∃ t, step (stateAt 254 [(254, 0x47)]) = .next t ∧ opAtPc (stateAt 254 [(254, 0x47)]) ≠ some .ldi ∧
      opAtPc (stateAt 254 [(254, 0x47)]) ≠ some .mul := ⟨_, rfl, by decide, by decide⟩

theorem witness_EventsAndFaultRecordAreNotRead :
    (∃ t, step (stateAt 254 [(254, 0x47)]) = .next t ∧ t.run ≠ .faulted) ∧
    (∃ t, step (stateAt 255 [(255, 0x47)]) = .next t ∧ t.run = .faulted) :=
  ⟨⟨_, rfl, by decide⟩, ⟨_, rfl, by decide⟩⟩

/-- Another memory that agrees on the two bytes of a PRN and not on the byte after it. -/
theorem witness_OnlyTheInstructionBytesAreRead :
    (∃ t, step (stateAt 0 [(0, 0x47), (1, 7)]) = .next t) ∧
    ∀ k, k < bytesRead (stateAt 0 [(0, 0x47), (1, 7)]) →
      Memory.read [(0, 0x47), (1, 7), (2, 1)] (0 + k) = Memory.read (stateAt 0 [(0, 0x47), (1, 7)]).mem (0 + k) :=
  ⟨⟨_, rfl⟩, by decide⟩

theorem witness_RegistersAreInterchangeable :
    (∃ t, exec (.mul 0 7) State.reset = .next t) ∧
    (∃ t, step (stateAt 255 [(255, 0xFF)]) = .next t ∧ opAtPc (stateAt 255 [(255, 0xFF)]) = none) ∧
    (7 : Byte).toNat ≤ 7 := ⟨⟨_, rfl⟩, ⟨_, rfl, by decide⟩, by decide⟩

theorem witness_IllFormedInstructionsFault : State.reset.run = .running := by decide

theorem witness_FaultsAreExact : ∃ t, step (stateAt 0 [(0, 0x47), (1, 8)]) = .next t ∧ t.run = .faulted :=
  ⟨_, rfl, by decide⟩

theorem witness_StepFaultsExactlyWhen :
    (∃ t, step (stateAt 0 [(0, 0xA2), (2, 8)]) = .next t ∧ t.run = .faulted) ∧
    (∃ t, step (stateAt 0 [(0, 0xA2), (2, 7)]) = .next t ∧ t.run ≠ .faulted) :=
  ⟨⟨_, rfl, by decide⟩, ⟨_, rfl, by decide⟩⟩

/-- A fetch fault, a first and a second operand fault, a first and a second bad index. -/
theorem witness_RecordedCauseFollowsTheCheckOrder :
    (∃ t, step (stateAt 256 []) = .next t ∧ t.fault = some ⟨.outOfBoundsMem 256, 256⟩) ∧
    (∃ t, step (stateAt 255 [(255, 0x47)]) = .next t ∧ t.fault = some ⟨.outOfBoundsMem 256, 255⟩) ∧
    (∃ t, step (stateAt 254 [(254, 0xA2)]) = .next t ∧ t.fault = some ⟨.outOfBoundsMem 256, 254⟩) ∧
    (∃ t, step (stateAt 253 [(253, 0xA2), (254, 8), (255, 9)]) = .next t ∧ t.fault = some ⟨.outOfBoundsReg 8, 253⟩) ∧
    (∃ t, step (stateAt 253 [(253, 0xA2), (254, 7), (255, 9)]) = .next t ∧ t.fault = some ⟨.outOfBoundsReg 9, 253⟩) ∧
    MachineInv (stateAt 256 []) ∧ MachineInv (stateAt 255 [(255, 0x47)]) ∧ MachineInv (stateAt 254 [(254, 0xA2)]) ∧
    MachineInv (stateAt 253 [(253, 0xA2), (254, 8), (255, 9)]) ∧ MachineInv (stateAt 253 [(253, 0xA2), (254, 7), (255, 9)]) :=
  ⟨⟨_, rfl, by decide⟩, ⟨_, rfl, by decide⟩, ⟨_, rfl, by decide⟩, ⟨_, rfl, by decide⟩, ⟨_, rfl, by decide⟩,
    running_inv (by decide) (by decide) (by decide) (by decide) rfl rfl,
    running_inv (by decide) (by decide) (by decide) (by decide) rfl rfl,
    running_inv (by decide) (by decide) (by decide) (by decide) rfl rfl,
    running_inv (by decide) (by decide) (by decide) (by decide) rfl rfl,
    running_inv (by decide) (by decide) (by decide) (by decide) rfl rfl⟩

theorem witness_ResetMeetsTheInvariant : Config.defaults.wf := by decide

theorem witness_LaunchedMachinesMeetTheInvariant : ∃ s, launch Config.defaults [0x01] = .next s := ⟨_, rfl⟩

theorem witness_StepKeepsTheInvariant :
    MachineInv (stateAt 255 [(255, 0xFF)]) ∧ ∃ t, step (stateAt 255 [(255, 0xFF)]) = .next t :=
  ⟨running_inv (by decide) (by decide) (by decide) (by decide) rfl rfl, ⟨_, rfl⟩⟩

theorem witness_EveryRunEndsWithinMemSizePlusOneSteps :
    (stateAt 256 []).pc ≤ (stateAt 256 []).params.memSize ∧ (stateAt 256 []).run = .running ∧
    (stateAt 256 []).params.memSize + 1 - (stateAt 256 []).pc ≤ 1 := by decide

theorem witness_RunsEndHaltedOrFaulted : ∃ s, launch Config.defaults [0x82, 8, 1] = .next s := ⟨_, rfl⟩

end Sys2Proof.Machine.Tests
end

