-- ==== Sys2Proof/Proofs/OpcodeTable.lean ====
section
/-! Decoding a byte list: what its first byte settles (30_encoding.md R53, R54). -/

namespace Sys2Proof

theorem byteAt_append_of_lt {bytes : List Byte} {k : Nat} (h : k < bytes.length) (rest : List Byte) :
    byteAt (bytes ++ rest) k = .ok bytes[k] := by
  simp [byteAt, List.getElem?_append_left h, List.getElem?_eq_getElem h]

/-- The bytes behind an instruction's encoding do not change what it decodes to. -/
@[simp] theorem decode_encode_append (i : Instr) (rest : List Byte) :
    decode (encode i ++ rest) = .ok (.instr i) :=
  decodeFrom_encode fun _ hk => byteAt_append_of_lt hk rest

theorem decode_cons_of_unknown {b : Byte} (hb : decodeOp b = none) (bytes : List Byte) :
    decode (b :: bytes) = .ok (.unknown b) :=
  decodeFrom_of_unknown rfl hb

/-- With two bytes behind it, an opcode byte has all the operand bytes its instruction can need (R50). -/
theorem exists_decode_opcodeByte_cons_cons (o : Operation) (x y : Byte) (rest : List Byte) :
    ∃ i, decode (opcodeByte o :: x :: y :: rest) = .ok (.instr i) := by
  cases o with
  | ldi => exact ⟨.ldi x y, decode_encode_append (.ldi x y) rest⟩
  | prn => exact ⟨.prn x, decode_encode_append (.prn x) (y :: rest)⟩
  | mul => exact ⟨.mul x y, decode_encode_append (.mul x y) rest⟩
  | hlt => exact ⟨.hlt, decode_encode_append .hlt (x :: y :: rest)⟩

theorem exists_decode_cons_cons_cons_iff (b x y : Byte) (rest : List Byte) :
    (∃ i, decode (b :: x :: y :: rest) = .ok (.instr i)) ↔ (decodeOp b).isSome = true := by
  rcases hb : decodeOp b with _ | o
  · simp [decode_cons_of_unknown hb]
  · obtain rfl := decodeOp_eq_some.1 hb
    simp [exists_decode_opcodeByte_cons_cons]

/-- Settles O4: the table is `decodeOp_eq`; a byte outside it decodes to itself as unknown, and a byte of it, with two
bytes behind it, begins an instruction's encoding. -/
theorem decodeIsTheOpcodeTable : Obligations.DecodeIsTheOpcodeTable :=
  ⟨decodeOp_eq, exists_decode_cons_cons_cons_iff⟩

end Sys2Proof
end

/-! LDI (41_register_ops.md R85): what its meaning does to the state, and how a step from memory comes to it or faults
before it. The lemmas on the fetch are said for every instruction. -/

namespace Sys2Proof.Machine

/-! ## Frames -/

theorem faultedFrom_raise (c : FaultCause) (s : State) : FaultedFrom c s (raise c s) :=
  ⟨rfl, rfl, rfl, rfl, rfl, rfl, rfl⟩

theorem sameRegsExcept_of_set {i v : Byte} {s t : State} (hi : i.toNat < 8)
    (ht : t.regs = s.regs.set i.toNat v) : SameRegsExcept i s t :=
  fun j hj => (regRead_set v hi ht j).trans (if_neg hj)

/-! ## The step from memory -/

/-- Where the bytes at the PC of a RUNNING machine are an instruction's encoding, the step is its meaning (R73). -/
theorem step_of_encode {s : State} {i : Instr} (hrun : s.run = .running)
    (hbytes : ∀ k (hk : k < (encode i).length), memRead (s.pc + k) s = .ok (encode i)[k]) :
    step s = exec i s := by
  rw [step_running hrun, fetch_encode hbytes, afterFetch_instr]

/-- An instruction whose bytes are all there has the operation its opcode byte names. -/
theorem operation_eq_of_opcode {s : State} {i : Instr} {o : Operation} (hop : memRead s.pc s = .ok (opcodeByte o))
    (hbytes : ∀ k (hk : k < (encode i).length), memRead (s.pc + k) s = .ok (encode i)[k]) :
    i.operation = o := by
  have h0 : memRead s.pc s = .ok (opcodeByte i.operation) := hbytes 0 (Nat.succ_pos _)
  have hbyte : opcodeByte i.operation = opcodeByte o := Except.ok.inj (h0.symm.trans hop)
  simpa using congrArg decodeOp hbyte

/-- Memory that ends inside the instruction at the PC: the step faults at the first byte that does not exist, which is
the order of 60_exceptions.md R108. -/
theorem step_of_missing_operand {s : State} {o : Operation} {k : Nat} (hrun : s.run = .running)
    (hop : memRead s.pc s = .ok (opcodeByte o)) (hk : k < o.length) (hend : s.pc + k = s.params.memSize) :
    step s = .next (raise (.outOfBoundsMem (s.pc + k)) s) := by
  have hpc : s.pc < s.params.memSize := (memRead_eq_ok.1 hop).1
  rw [step_running hrun]
  rcases fetch_cases s with ⟨hout, -⟩ | ⟨b, hb, hunknown, -⟩ | ⟨o', k', -, -, -, hend', hf⟩ | ⟨i, hlen, hbytes, -⟩
  · omega
  · obtain rfl : b = opcodeByte o := Except.ok.inj (hb.symm.trans hop)
    simp at hunknown
  · obtain rfl : k' = k := by omega
    rw [hf, afterFetch_error]
  · rw [operation_eq_of_opcode hop hbytes] at hlen
    omega

/-! ## LDI -/

theorem exec_ldi_valid {r : Byte} (imm : Byte) (s : State) (h : r.toNat < 8) :
    ∃ t, exec (.ldi r imm) s = .next t ∧
      regRead r t = .ok imm ∧ SameRegsExcept r s t ∧ t.pc = s.pc + 3 ∧
      t.events = s.events ∧ SameStatus s t ∧ SameMemory s t := by
  refine ⟨_, execLdi_valid imm s h, ?_, sameRegsExcept_of_set h rfl, rfl, rfl, ⟨rfl, rfl, rfl⟩, memRead_congr rfl rfl⟩
  exact (regRead_set imm h rfl r).trans (if_pos rfl)

theorem step_ldi {s : State} {r imm : Byte} (hrun : s.run = .running)
    (hop : memRead s.pc s = .ok (opcodeByte .ldi)) (hr : memRead (s.pc + 1) s = .ok r)
    (himm : memRead (s.pc + 2) s = .ok imm) : step s = exec (.ldi r imm) s :=
  step_of_encode hrun fun
    | 0, _ => hop
    | 1, _ => hr
    | 2, _ => himm

/-- Settles O13: the two outcomes of the meaning by whether the index names a register; from memory, a missing operand
byte is a fault of the fetch, the lower one first since Memory then ends right behind the opcode. -/
theorem ldiWritesTheImmediate : Obligations.LdiWritesTheImmediate := by
  intro s r imm
  refine ⟨fun hr => exec_ldi_valid imm s (by omega), fun hr => ?_,
    fun hrun (hop : memRead s.pc s = .ok (opcodeByte .ldi)) => ⟨fun h1 => ?_, fun h1 h2 => ?_, step_ldi hrun hop⟩⟩
  · exact ⟨_, execLdi_invalid imm s (by omega), faultedFrom_raise _ s⟩
  · have hpc : s.pc < s.params.memSize := (memRead_eq_ok.1 hop).1
    exact ⟨_, step_of_missing_operand hrun hop (by decide) (by omega), faultedFrom_raise _ s⟩
  · exact ⟨_, step_of_missing_operand hrun hop (by decide) (by omega), faultedFrom_raise _ s⟩

end Sys2Proof.Machine

/-! The round trips between instructions, bytes and table words (30_encoding.md R50 to R59): decoding undoes encoding and
assembly, and what decodes to an instruction begins with its encoding. -/

namespace Sys2Proof

/-! ## An encoding read as one number -/

theorem wordOf_lt (bytes : List Byte) : wordOf bytes < 2 ^ (8 * bytes.length) := by
  induction bytes with
  | nil => simp [wordOf]
  | cons b bytes ih =>
    have hb := b.isLt
    have hpow : 2 ^ (8 * (bytes.length + 1)) = 2 ^ (8 * bytes.length) * 256 := by rw [Nat.mul_succ, Nat.pow_add]
    change b.toNat + 256 * wordOf bytes < 2 ^ (8 * (bytes.length + 1))
    omega

theorem ofNat_toNat_add_256_mul (b : Byte) (w : Nat) : BitVec.ofNat 8 (b.toNat + 256 * w) = b := by
  apply BitVec.eq_of_toNat_eq
  have hb := b.isLt
  simp only [BitVec.toNat_ofNat]
  omega

/-- At most three bytes read as a number of at least their length are the first bytes of that number. -/
theorem isPrefix_bytesOfWord_wordOf {bytes : List Byte} {nbits : Nat} (hlen : bytes.length ≤ 3)
    (hnbits : 8 * bytes.length ≤ nbits) : bytes <+: bytesOfWord nbits (wordOf bytes) := by
  have hmod : wordOf bytes % 2 ^ nbits = wordOf bytes :=
    Nat.mod_eq_of_lt ((wordOf_lt bytes).trans_le (Nat.pow_le_pow_right (by decide) hnbits))
  have hdiv (b : Byte) (w : Nat) : (b.toNat + 256 * w) / 256 = w := by
    have hb := b.isLt
    omega
  have hdiv2 (v : Nat) : v / 65536 = v / 256 / 256 := by omega
  simp only [bytesOfWord, hmod, hdiv2]
  match bytes, hlen with
  | [], _ => exact List.nil_prefix
  | [a], _ => simp [wordOf]
  | [a, b], _ => simp [wordOf, hdiv, ofNat_toNat_add_256_mul]
  | [a, b, c], _ => simp [wordOf, hdiv, ofNat_toNat_add_256_mul]

theorem decode_of_encode_prefix {i : Instr} {bytes : List Byte} (h : encode i <+: bytes) :
    decode bytes = .ok (.instr i) := by
  obtain ⟨rest, rfl⟩ := h
  exact decode_encode_append i rest

theorem decodeTableWord_eq_some {nbits w : Nat} {i : Instr} :
    decodeTableWord nbits w = some i ↔ decode (bytesOfWord nbits w) = .ok (.instr i) := by
  unfold decodeTableWord
  rcases decode (bytesOfWord nbits w) with e | d
  · simp
  · cases d <;> simp

/-- Settles O7: an encoding is at most three bytes, so the number it stands for has it as its first bytes. -/
theorem decodeInvertsEncode : Obligations.DecodeInvertsEncode := by
  refine fun i => ⟨decode_encode_append i, fun nbits hnbits => ?_⟩
  have hlen : (encode i).length ≤ 3 := (encode_length i).trans_le (operation_length_bounds _).2
  have hprefix : encode i <+: bytesOfWord nbits (wordOf (encode i)) :=
    isPrefix_bytesOfWord_wordOf hlen (by rwa [encode_length])
  exact decodeTableWord_eq_some.2 (decode_of_encode_prefix hprefix)

/-! ## What a byte list decodes to -/

theorem byteAt_eq_ok {bytes : List Byte} {k : Nat} {b : Byte} : byteAt bytes k = .ok b ↔ bytes[k]? = some b := by
  unfold byteAt
  cases bytes[k]? <;> simp

theorem byteAt_eq_error {bytes : List Byte} {k : Nat} {e : DecodeError} :
    byteAt bytes k = .error e ↔ bytes.length ≤ k ∧ e = .missingByte k := by
  unfold byteAt
  rcases h : bytes[k]? with _ | b
  · simp [List.getElem?_eq_none_iff.1 h, eq_comm]
  · simp [(List.getElem?_eq_some_iff.1 h).1]

/-- A byte list begins with the encoding it decodes to, or with the unknown byte it decodes to, or ends too early. -/
theorem decode_cases (bytes : List Byte) :
    (∃ i, encode i <+: bytes ∧ decode bytes = .ok (.instr i)) ∨
    (∃ b, bytes.head? = some b ∧ decodeOp b = none ∧ decode bytes = .ok (.unknown b)) ∨
    decode bytes = .error (.missingByte bytes.length) := by
  rcases decodeFrom_cases (byteAt bytes) with
    ⟨e, h0, h⟩ | ⟨b, h0, hb, h⟩ | ⟨o, k, e, -, hk, -, hbefore, hmissing, h⟩ | ⟨i, hi, h⟩
  · obtain ⟨hlen, rfl⟩ := byteAt_eq_error.1 h0
    rw [Nat.le_zero.1 hlen]
    exact .inr (.inr h)
  · exact .inr (.inl ⟨b, by rw [List.head?_eq_getElem?]; exact byteAt_eq_ok.1 h0, hb, h⟩)
  · obtain ⟨hlen, rfl⟩ := byteAt_eq_error.1 hmissing
    obtain ⟨b, hb⟩ := hbefore (k - 1) (by omega)
    have hlt := (List.getElem?_eq_some_iff.1 (byteAt_eq_ok.1 hb)).1
    obtain rfl : k = bytes.length := by omega
    exact .inr (.inr h)
  · exact .inl ⟨i, List.prefix_iff_getElem?.2 fun k hk => byteAt_eq_ok.1 (hi k hk), h⟩

/-- Settles O8: the three outcomes of `decode_cases`, one for each kind of answer. -/
theorem decodedBytesAreTheEncoding : Obligations.DecodedBytesAreTheEncoding := by
  intro bytes
  rcases decode_cases bytes with ⟨i, hi, h⟩ | ⟨b, hhead, hb, h⟩ | h
  · simp [h, hi]
  · simp [h, hhead, hb]
  · simp [h]

/-! ## Words and formats written out -/

/-- Settles O5: each list of bytes is written out, so the decoder is run on it. -/
theorem workedWordsDecode : Obligations.WorkedWordsDecode := by
  refine ⟨?_, ?_, ?_, ?_, ?_, ?_⟩ <;> decide

namespace Machine

/-- Settles O6: the opcode byte of each row of the table, then the operand bytes. -/
theorem encodingsAreTheFormats : Obligations.EncodingsAreTheFormats :=
  ⟨fun _ _ => rfl, fun _ => rfl, fun _ _ => rfl, rfl, fun _ => rfl⟩

/-! ## Assembled lines -/

theorem assemble_cons (line : AsmLine) (lines : List AsmLine) :
    assemble (line :: lines) = line.bytes ++ assemble lines := List.flatMap_cons

theorem AsmLine.bytes_length_pos (line : AsmLine) : 0 < line.bytes.length := by
  cases line <;> simp [AsmLine.bytes, encode]

theorem length_le_assemble_length (lines : List AsmLine) : lines.length ≤ (assemble lines).length := by
  induction lines with
  | nil => exact Nat.zero_le _
  | cons line lines ih =>
    have hpos := line.bytes_length_pos
    rw [assemble_cons, List.length_append, List.length_cons]
    omega

theorem disassemble_nil (n : Nat) : disassemble n [] = [] := by
  cases n with
  | zero => rfl
  | succ n => rfl

/-- One line is taken off the front of its bytes, whatever follows, where a `.byte` line holds an unknown byte. -/
theorem disassemble_bytes_append {line : AsmLine} (hline : ∀ v, line = .byte v → decodeOp v = none) (n : Nat)
    (rest : List Byte) : disassemble (n + 1) (line.bytes ++ rest) = line :: disassemble n rest := by
  cases line with
  | instr i => simp [disassemble, AsmLine.bytes, ← encode_length]
  | byte v => simp [disassemble, AsmLine.bytes, decode_cons_of_unknown (hline v rfl)]

theorem disassemble_assemble {lines : List AsmLine} (hlines : ∀ v, AsmLine.byte v ∈ lines → decodeOp v = none) {n : Nat}
    (hn : lines.length ≤ n) : disassemble n (assemble lines) = lines := by
  induction lines generalizing n with
  | nil => exact disassemble_nil n
  | cons line lines ih =>
    obtain ⟨n, rfl⟩ : ∃ m, n = m + 1 := ⟨n - 1, by rw [List.length_cons] at hn; omega⟩
    have hline : ∀ v, line = .byte v → decodeOp v = none := fun v hv => hlines v (hv ▸ List.mem_cons_self)
    rw [assemble_cons, disassemble_bytes_append hline,
      ih (fun v hv => hlines v (List.mem_cons_of_mem _ hv)) (Nat.le_of_succ_le_succ hn)]

/-- Settles O9, by induction on the lines: each emits at least one byte, so as many rounds as there are bytes suffice. -/
theorem disassemblyRecoversTheLines : Obligations.DisassemblyRecoversTheLines :=
  fun lines hlines => disassemble_assemble hlines (length_le_assemble_length lines)

end Machine

end Sys2Proof

/-! A step and the instruction it runs: `step` and `exec` answer the effects of `StepEffect` and `ExecEffect`, and what every such
effect does and leaves (10_state.md R13, R15, R20; 60_exceptions.md R106 to R109). -/

namespace Sys2Proof.Machine

section
variable {s t : State} {i : Instr}

/-! ## Answers and effects -/

theorem ExecEffect.exec_eq (h : ExecEffect s i t) : exec i s = .next t := by
  cases h with
  | ldi hr => exact execLdi_valid _ s hr
  | prn hr => exact execPrn_valid s hr
  | mul ha hb => exact execMul_valid s ha hb
  | hlt => rfl
  | ldiBad hr => exact execLdi_invalid _ s hr
  | prnBad hr => exact execPrn_invalid s hr
  | mulBadA ha => exact execMul_bad_a _ s ha
  | mulBadB ha hb => exact execMul_bad_b s ha hb

/-- With no cell at the PC the fetch itself faults (R71, D5). -/
theorem step_of_pc_outside (hrun : s.run = .running) (hpc : s.params.memSize ≤ s.pc) :
    step s = .next (raise (.outOfBoundsMem s.pc) s) := by
  have hf : fetch s = .error (.outOfBoundsMem s.pc) := decodeFrom_of_error (memRead_outside hpc)
  rw [step_running hrun, hf, afterFetch_error]

theorem step_of_unknown {b : Byte} (hrun : s.run = .running) (hb : memRead s.pc s = .ok b) (hop : decodeOp b = none) :
    step s = .next (skipUnknown b s) := by
  have hf : fetch s = .ok (.unknown b) := decodeFrom_of_unknown hb hop
  rw [step_running hrun, hf, afterFetch_unknown]

theorem StepEffect.step_eq (hrun : s.run = .running) (h : StepEffect s t) : step s = .next t := by
  cases h with
  | @fetchFault k hk hbound hfirst hop =>
    by_cases h0 : k = 0
    · subst h0
      exact step_of_pc_outside hrun hbound
    · obtain ⟨o, ho, hlt⟩ := hop h0
      exact step_of_missing_operand hrun ho hlt (hfirst.resolve_left h0)
  | skip hb hop => exact step_of_unknown hrun hb hop
  | exec hlen hbytes heff => rw [step_of_encode hrun hbytes, heff.exec_eq]

theorem step_halted (h : s.run = .halted) : step s = .fault .stepAfterHalt := by simp [step, noStep, h]

theorem step_faulted (h : s.run = .faulted) : step s = .fault .stepAfterFault := by simp [step, noStep, h]

/-! ## The bytes of the instruction at the PC -/

theorem opAtPc_of_memRead {b : Byte} (h : memRead s.pc s = .ok b) : opAtPc s = decodeOp b := by simp [opAtPc, h]

theorem opAtPc_of_opcode {o : Operation} (h : memRead s.pc s = .ok (opcodeByte o)) : opAtPc s = some o := by
  rw [opAtPc_of_memRead h, decodeOp_opcodeByte]

section
variable (hbytes : ∀ k (hk : k < (encode i).length), memRead (s.pc + k) s = .ok (encode i)[k])
include hbytes

theorem opAtPc_of_bytes : opAtPc s = some i.operation :=
  opAtPc_of_opcode (hbytes 0 (Nat.succ_pos _))

theorem read_of_bytes {k : Nat} {b : Byte} (hb : (encode i)[k]? = some b) :
    Memory.read s.mem (s.pc + k) = b := by
  obtain ⟨hk, rfl⟩ := List.getElem?_eq_some_iff.1 hb
  exact (memRead_eq_ok.1 (hbytes k hk)).2

end

/-! ## What an executed instruction does -/

theorem ExecEffect.params_eq (h : ExecEffect s i t) : t.params = s.params := by cases h <;> rfl

theorem ExecEffect.mem_eq (h : ExecEffect s i t) : t.mem = s.mem := by cases h <;> rfl

/-- The three ways an instruction ends: a register fault exactly when it is ill-formed, the halt, and the advance by its
length (10_state.md R15). -/
theorem ExecEffect.outcome (h : ExecEffect s i t) :
    (∃ r : Byte, 7 < r.toNat ∧ i.wellFormed = false ∧ t = raise (.outOfBoundsReg r) s) ∨
    (i = .hlt ∧ t = halt s) ∨
    (i ≠ .hlt ∧ i.wellFormed = true ∧ t.run = s.run ∧ t.fault = s.fault ∧ t.pc = s.pc + i.operation.length) := by
  have valid {r : Byte} (hr : r.toNat < 8) : validIndex r = true := decide_eq_true (Nat.le_of_lt_succ hr)
  have invalid {r : Byte} (hr : ¬ r.toNat < 8) : validIndex r = false := decide_eq_false (by omega)
  cases h with
  | ldi hr => exact .inr (.inr ⟨by simp, valid hr, rfl, rfl, rfl⟩)
  | prn hr => exact .inr (.inr ⟨by simp, valid hr, rfl, rfl, rfl⟩)
  | mul ha hb => exact .inr (.inr ⟨by simp, by simp [Instr.wellFormed, valid ha, valid hb], rfl, rfl, rfl⟩)
  | hlt => exact .inr (.inl ⟨rfl, rfl⟩)
  | ldiBad hr => exact .inl ⟨_, by omega, invalid hr, rfl⟩
  | prnBad hr => exact .inl ⟨_, by omega, invalid hr, rfl⟩
  | mulBadA ha => exact .inl ⟨_, by omega, by simp [Instr.wellFormed, invalid ha], rfl⟩
  | mulBadB ha hb => exact .inl ⟨_, by omega, by simp [Instr.wellFormed, invalid hb], rfl⟩

theorem ExecEffect.faulted_iff (hrun : s.run = .running) (h : ExecEffect s i t) :
    t.run = .faulted ↔ i.wellFormed = false := by
  rcases h.outcome with ⟨r, -, hwf, rfl⟩ | ⟨rfl, rfl⟩ | ⟨-, hwf, hr, -⟩
  · simp [hwf]
  · simp [Instr.wellFormed]
  · simp [hwf, hr, hrun]

/-! ## What a step does -/

theorem StepEffect.params_eq (h : StepEffect s t) : t.params = s.params := by
  cases h with
  | fetchFault => rfl
  | skip => rfl
  | exec _ _ heff => exact heff.params_eq

theorem StepEffect.mem_eq (h : StepEffect s t) : t.mem = s.mem := by
  cases h with
  | fetchFault => rfl
  | skip => rfl
  | exec _ _ heff => exact heff.mem_eq

/-- A step that ends FAULTED has done nothing but raise its fault (60_exceptions.md R109). -/
theorem StepEffect.eq_raise (hrun : s.run = .running) (h : StepEffect s t) (ht : t.run = .faulted) :
    ∃ c, t = raise c s := by
  cases h with
  | fetchFault => exact ⟨_, rfl⟩
  | skip => simp [hrun] at ht
  | exec _ _ heff =>
    rcases heff.outcome with ⟨r, -, -, rfl⟩ | ⟨-, rfl⟩ | ⟨-, -, hr, -⟩
    · exact ⟨_, rfl⟩
    · simp at ht
    · simp [hr, hrun] at ht

end

/-! ## Statements on one instruction and on faults -/

/-- Settles O33: an instruction always answers one of its effects, and that is a fault exactly when it is ill-formed. -/
theorem illFormedInstructionsFault : Obligations.IllFormedInstructionsFault := by
  intro i s hrun
  obtain ⟨t, ht, heff⟩ := exec_effect i s
  exact ⟨t, ht, heff.faulted_iff hrun⟩

/-- Settles O34: a FAULTED step is a `raise`, and `raise` is the whole effect of a fault. -/
theorem faultsAreExact : Obligations.FaultsAreExact := by
  refine ⟨faultedFrom_raise, fun s t hstep ht => ?_⟩
  obtain ⟨hrun, heff⟩ := step_cases hstep
  obtain ⟨c, rfl⟩ := heff.eq_raise hrun ht
  exact ⟨c, faultedFrom_raise c s⟩

end Sys2Proof.Machine

/-! The invariant (10_state.md R14, R17, R18; 40_run_loop.md R77): from where it holds at launch, and every step keeps it. -/

namespace Sys2Proof.Machine

section
variable {s t : State}

/-- A RUNNING machine without a fault record meets the invariant when its parameters, PC and memory do. -/
theorem MachineInv.of_running (hparams : s.params.wf) (hpc : s.pc ≤ s.params.memSize) (hmem : Memory.wf s.mem)
    (hinside : ∀ c ∈ s.mem, c.1 < s.params.memSize) (hrun : s.run = .running) (hfault : s.fault = none) :
    MachineInv s where
  params_wf := hparams
  pc_le := hpc
  mem_wf := hmem
  mem_inside := hinside
  fault_iff := by simp [hrun, hfault]
  fault_at := by simp [hfault]
  halted_at := by simp [hrun]

theorem MachineInv.fault_eq_none (h : MachineInv s) (hrun : s.run ≠ .faulted) : s.fault = none :=
  not_not.1 fun hfault => hrun (h.fault_iff.1 hfault)

/-! ## The three ways a step ends -/

/-- A RUNNING machine that goes on keeps the invariant when its PC stays within Memory's end. -/
theorem MachineInv.goesOn (h : MachineInv s) (hparams : t.params = s.params) (hmem : t.mem = s.mem)
    (hrun : t.run = .running) (hfault : t.fault = s.fault) (hs : s.run = .running) (hpc : t.pc ≤ s.params.memSize) :
    MachineInv t :=
  .of_running (hparams ▸ h.params_wf) (hparams ▸ hpc) (hmem ▸ h.mem_wf) (hmem ▸ hparams ▸ h.mem_inside) hrun
    (hfault.trans (h.fault_eq_none (by simp [hs])))

theorem MachineInv.halt (h : MachineInv s) (hrun : s.run = .running) (hop : memRead s.pc s = .ok (opcodeByte .hlt)) :
    MachineInv (halt s) where
  params_wf := h.params_wf
  pc_le := h.pc_le
  mem_wf := h.mem_wf
  mem_inside := h.mem_inside
  fault_iff := by simp [h.fault_eq_none (s := s) (by simp [hrun])]
  fault_at := h.fault_at
  halted_at := fun _ => hop

theorem MachineInv.raise {c : FaultCause} (h : MachineInv s) (hc : possibleCause s s.pc c) : MachineInv (raise c s) where
  params_wf := h.params_wf
  pc_le := h.pc_le
  mem_wf := h.mem_wf
  mem_inside := h.mem_inside
  fault_iff := by simp
  fault_at := by
    intro f hf
    obtain rfl : ⟨c, s.pc⟩ = f := by simpa using hf
    refine ⟨rfl, ?_⟩
    cases c <;> exact hc
  halted_at := by simp

/-- Under the invariant a fetch fault reports `MEM_SIZE` (60_exceptions.md R106). -/
theorem MachineInv.fetchFault_addr (h : MachineInv s) {k : Nat} (hbound : s.params.memSize ≤ s.pc + k)
    (hfirst : k = 0 ∨ s.pc + k = s.params.memSize) : s.pc + k = s.params.memSize := by
  have hpc := h.pc_le
  omega

theorem MachineInv.of_stepEffect (h : MachineInv s) (hrun : s.run = .running) (heff : StepEffect s t) : MachineInv t := by
  cases heff with
  | fetchFault hk hbound hfirst hop =>
    exact h.raise ⟨h.fetchFault_addr hbound hfirst, by omega⟩
  | skip hb hop =>
    exact h.goesOn rfl rfl hrun rfl hrun (memRead_eq_ok.1 hb).1
  | exec hlen hbytes heff =>
    rcases heff.outcome with ⟨r, hr, -, rfl⟩ | ⟨rfl, rfl⟩ | ⟨-, -, hr, hf, hpc⟩
    · exact h.raise hr
    · exact h.halt hrun (hbytes 0 (by decide))
    · exact h.goesOn heff.params_eq heff.mem_eq (hr.trans hrun) hf hrun (hpc ▸ hlen)

end

/-- Settles O39, by the ways a step ends: it faults with a possible cause, halts at an HLT, or goes on within Memory. -/
theorem stepKeepsTheInvariant : Obligations.StepKeepsTheInvariant := by
  intro s t hs hstep
  obtain ⟨hrun, heff⟩ := step_cases hstep
  exact hs.of_stepEffect hrun heff

end Sys2Proof.Machine

/-! What each step changes and what decides it (10_state.md R13, R15, R17, R20; 20_memory.md R35; 60_exceptions.md R106,
R108): every statement is read off the effects of a step. -/

namespace Sys2Proof.Machine

section
variable {s t : State} {i : Instr}

section
variable (hbytes : ∀ k (hk : k < (encode i).length), memRead (s.pc + k) s = .ok (encode i)[k])
include hbytes

/-! ## Indices out of range -/

/-- An instruction is ill-formed exactly when one of the index bytes it has in memory names no register. -/
theorem wellFormed_eq_false_iff_badIndexAt :
    i.wellFormed = false ↔ (i.operation ≠ .hlt ∧ badIndexAt s 1) ∨ (i.operation = .mul ∧ badIndexAt s 2) := by
  have hread {k : Nat} {x : Byte} := read_of_bytes hbytes (k := k) (b := x)
  cases i with
  | ldi r imm =>
    have h1 : Memory.read s.mem (s.pc + 1) = r := hread (k := 1) rfl
    simp [Instr.wellFormed, validIndex, Instr.operation, badIndexAt, h1]
  | prn r =>
    have h1 : Memory.read s.mem (s.pc + 1) = r := hread (k := 1) rfl
    simp [Instr.wellFormed, validIndex, Instr.operation, badIndexAt, h1]
  | mul a b =>
    have h1 : Memory.read s.mem (s.pc + 1) = a := hread (k := 1) rfl
    have h2 : Memory.read s.mem (s.pc + 2) = b := hread (k := 2) rfl
    simp only [Instr.wellFormed, validIndex, Instr.operation, badIndexAt, h1, h2, Bool.and_eq_false_iff]
    simp
  | hlt => simp [Instr.wellFormed, Instr.operation]

/-- A register fault reports the first index of the instruction that names no register (60_exceptions.md R108, D8). -/
theorem ExecEffect.bad_index {c : FaultCause} (h : ExecEffect s i t)
    (hs : s.fault = none) (ht : t.fault = some ⟨c, s.pc⟩) :
    ∃ r : Byte, c = .outOfBoundsReg r ∧ 7 < r.toNat ∧ (r = Memory.read s.mem (s.pc + 1) ∨
      (i.operation = .mul ∧ ¬ badIndexAt s 1 ∧ r = Memory.read s.mem (s.pc + 2))) := by
  have hread {k : Nat} {x : Byte} := read_of_bytes hbytes (k := k) (b := x)
  have hcause {c' : FaultCause} (h : some (FaultRecord.mk c' s.pc) = some ⟨c, s.pc⟩) : c = c' := by
    cases h; rfl
  cases h with
  | ldi | prn | mul | hlt => simp [hs] at ht
  | ldiBad hr => exact ⟨_, hcause ht, by omega, .inl (hread (k := 1) rfl).symm⟩
  | prnBad hr => exact ⟨_, hcause ht, by omega, .inl (hread (k := 1) rfl).symm⟩
  | mulBadA ha => exact ⟨_, hcause ht, by omega, .inl (hread (k := 1) rfl).symm⟩
  | mulBadB ha hb =>
    have h1 : ¬ badIndexAt s 1 := by
      rw [badIndexAt, hread (k := 1) rfl]
      exact Nat.not_lt.2 (Nat.le_of_lt_succ ha)
    exact ⟨_, hcause ht, by omega, .inr ⟨rfl, h1, (hread (k := 2) rfl).symm⟩⟩

/-! ## Registers and events -/

/-- An instruction writes no register but the one its first operand byte names, and only as LDI or MUL (10_state.md R13). -/
theorem ExecEffect.regs (h : ExecEffect s i t) :
    (i.operation ≠ .ldi → i.operation ≠ .mul → SameRegs s t) ∧
      SameRegsExcept (Memory.read s.mem (s.pc + 1)) s t := by
  have hread {k : Nat} {x : Byte} := read_of_bytes hbytes (k := k) (b := x)
  have same (ht : t.regs = s.regs) : (i.operation ≠ .ldi → i.operation ≠ .mul → SameRegs s t) ∧
      SameRegsExcept (Memory.read s.mem (s.pc + 1)) s t :=
    ⟨fun _ _ => regRead_congr ht, fun j _ => regRead_congr ht j⟩
  cases h with
  | ldi hr =>
    rw [hread (k := 1) rfl]
    exact ⟨fun hop => absurd rfl hop, sameRegsExcept_of_set hr rfl⟩
  | mul ha hb =>
    rw [hread (k := 1) rfl]
    exact ⟨fun _ hop => absurd rfl hop, sameRegsExcept_of_set ha rfl⟩
  | prn | hlt | ldiBad | prnBad | mulBadA | mulBadB => exact same rfl

/-- An instruction appends an event only as a PRN that does not fault (10_state.md R20). -/
theorem ExecEffect.events (h : ExecEffect s i t) :
    (i.operation = .prn → t.run ≠ .faulted → ∃ v, regRead (Memory.read s.mem (s.pc + 1)) s = .ok v ∧
      t.events = s.events ++ [.print v]) ∧
    (i.operation ≠ .prn → t.events = s.events) := by
  cases h with
  | prn hr =>
    rw [read_of_bytes hbytes (k := 1) rfl]
    exact ⟨fun _ _ => ⟨_, regRead_valid s hr, rfl⟩, fun hop => absurd rfl hop⟩
  | prnBad => exact ⟨fun _ ht => absurd rfl ht, fun _ => rfl⟩
  | ldi | mul | hlt | ldiBad | mulBadA | mulBadB => exact ⟨fun hop => (by cases hop), fun _ => rfl⟩

end

theorem StepEffect.halted_iff (hrun : s.run = .running) (h : StepEffect s t) :
    t.run = .halted ↔ memRead s.pc s = .ok (opcodeByte .hlt) := by
  constructor
  · intro ht
    cases h with
    | fetchFault => simp at ht
    | skip => simp [hrun] at ht
    | exec _ hbytes heff =>
      rcases heff.outcome with ⟨r, -, -, rfl⟩ | ⟨rfl, -⟩ | ⟨-, -, hr, -⟩
      · simp at ht
      · exact hbytes 0 (by decide)
      · simp [hr, hrun] at ht
  · intro hop
    have hstep : step s = .next (halt s) := step_of_encode (i := .hlt) hrun fun
      | 0, _ => hop
    have ht := h.step_eq hrun
    rw [hstep] at ht
    cases ht
    rfl

end

/-! ## The statements -/

/-- Settles O35: a fetch fault is the first alternative or the missing operand, a register fault an ill-formed instruction. -/
theorem stepFaultsExactlyWhen : Obligations.StepFaultsExactlyWhen := by
  intro s t hstep
  obtain ⟨hrun, heff⟩ := step_cases hstep
  cases heff with
  | @fetchFault k hk hbound hfirst hop =>
    refine iff_of_true rfl ?_
    by_cases h0 : k = 0
    · subst h0
      exact .inl hbound
    · obtain ⟨o, ho, hlt⟩ := hop h0
      exact .inr ⟨o, opAtPc_of_opcode ho, .inl (by omega)⟩
  | skip hb hop =>
    have hpc := (memRead_eq_ok.1 hb).1
    simp [hrun, opAtPc_of_memRead hb, hop, hpc]
  | @exec i _ hlen hbytes heff =>
    have hpos := (operation_length_bounds i.operation).1
    rw [heff.faulted_iff hrun, wellFormed_eq_false_iff_badIndexAt hbytes]
    simp [opAtPc_of_bytes hbytes, show ¬ s.params.memSize ≤ s.pc by omega,
      show ¬ s.params.memSize < s.pc + i.operation.length by omega]

/-- Settles O36: a fetch fault reports `MEM_SIZE` at a distance from the PC below the operation's length, and a register
fault comes of an instruction whose bytes all exist. -/
theorem recordedCauseFollowsTheCheckOrder : Obligations.RecordedCauseFollowsTheCheckOrder := by
  intro s t c hs hstep ht
  obtain ⟨hrun, heff⟩ := step_cases hstep
  have hnone : s.fault = none := hs.fault_eq_none (by simp [hrun])
  cases heff with
  | @fetchFault k hk hbound hfirst hop =>
    obtain rfl : FaultCause.outOfBoundsMem (s.pc + k) = c := by simpa using ht
    have haddr := hs.fetchFault_addr hbound hfirst
    refine ⟨haddr, ?_⟩
    by_cases h0 : k = 0
    · subst h0
      exact .inl haddr
    · obtain ⟨o, ho, hlt⟩ := hop h0
      replace hop := opAtPc_of_opcode ho
      obtain rfl | rfl : k = 1 ∨ k = 2 := by omega
      · exact .inr (.inl ⟨o, hop, by rintro rfl; exact absurd hlt (by decide), haddr⟩)
      · refine .inr (.inr ⟨?_, haddr⟩)
        cases o with
        | ldi => exact .inl hop
        | mul => exact .inr hop
        | prn | hlt => exact absurd hlt (by decide)
  | skip => simp [hnone] at ht
  | @exec i _ hlen hbytes heff =>
    obtain ⟨r, rfl, hr, hindex⟩ := heff.bad_index hbytes hnone ht
    exact ⟨i.operation, opAtPc_of_bytes hbytes, hlen, hr, hindex⟩

/-- Settles O26: a fault and HLT leave the PC, a skip moves it by 1 and every other instruction by its length. -/
theorem pcAdvancesByTheOutcome : Obligations.PcAdvancesByTheOutcome := by
  intro s t hstep
  obtain ⟨hrun, heff⟩ := step_cases hstep
  refine ⟨fun ht => ?_, fun ht => ?_⟩
  · obtain ⟨c, rfl⟩ := heff.eq_raise hrun ht
    rfl
  · cases heff with
    | fetchFault => exact absurd rfl ht
    | skip hb hop => simp [opAtPc_of_memRead hb, hop]
    | @exec i _ hlen hbytes heff =>
      rw [opAtPc_of_bytes hbytes]
      rcases heff.outcome with ⟨r, -, -, rfl⟩ | ⟨rfl, rfl⟩ | ⟨hne, -, -, -, hpc⟩
      · exact absurd rfl ht
      · simp [Instr.operation]
      · rw [hpc]
        cases i with
        | ldi | prn | mul => simp [Instr.operation, Operation.length]
        | hlt => exact absurd rfl hne

/-- Settles O28: only an executed LDI or MUL writes a register, and that is the one its first operand byte names. -/
theorem onlyLdiAndMulChangeRegisters : Obligations.OnlyLdiAndMulChangeRegisters := by
  intro s t hstep
  obtain ⟨-, heff⟩ := step_cases hstep
  cases heff with
  | fetchFault => exact ⟨fun _ _ => regRead_congr rfl, fun j _ => regRead_congr rfl j⟩
  | skip => exact ⟨fun _ _ => regRead_congr rfl, fun j _ => regRead_congr rfl j⟩
  | exec hlen hbytes heff =>
    rw [opAtPc_of_bytes hbytes]
    simpa using heff.regs hbytes

/-- Settles O29: a fault appends nothing, a skip its `Diag`, and an instruction what `ExecEffect.events` says. -/
theorem eventsAreAppendedInOrder : Obligations.EventsAreAppendedInOrder := by
  intro s t hstep
  obtain ⟨hrun, heff⟩ := step_cases hstep
  refine ⟨fun ht => ?_, fun ht => ?_⟩
  · obtain ⟨c, rfl⟩ := heff.eq_raise hrun ht
    rfl
  · cases heff with
    | fetchFault => exact absurd rfl ht
    | skip hb hop =>
      obtain ⟨-, hread⟩ := memRead_eq_ok.1 hb
      simp [opAtPc_of_memRead hb, hop, hread]
    | exec hlen hbytes heff =>
      obtain ⟨hprn, hother⟩ := heff.events hbytes
      rw [opAtPc_of_bytes hbytes]
      exact ⟨fun hop => hprn (Option.some.inj hop) ht, fun hop => (by cases hop),
        fun hop _ => hother fun h => hop (congrArg some h)⟩

end Sys2Proof.Machine

/-! What a step reads (10_state.md R17, R18, R20; 20_memory.md R31, R45): from two states that agree on the registers and on the
bytes of the instruction at the PC, it makes the same change. -/

namespace Sys2Proof.Machine

/-! ## The change an instruction or a step makes -/

/-- What an instruction or a step does, apart from the state it is done to. -/
inductive Change where
  /-- New registers, a PC moved by `n`, and events appended. -/
  | update (regs : Vector Byte 8) (n : Nat) (emitted : List Event)
  /-- The machine halts. -/
  | stop
  /-- A fault is raised. -/
  | fault (c : FaultCause)

/-- Make a change to a state. -/
def Change.apply : Change → State → State
  | .update regs n emitted, s => { s with regs := regs, pc := s.pc + n, events := s.events ++ emitted }
  | .stop, s => halt s
  | .fault c, s => raise c s

section
variable (d : Change) (s : State)

theorem Change.apply_with_run (r : RunState) :
    { d.apply { s with run := r } with run := (d.apply s).run } = d.apply s := by
  cases d <;> rfl

theorem Change.apply_with_mem (m : Memory) : d.apply { s with mem := m } = { d.apply s with mem := m } := by
  cases d <;> rfl

theorem Change.apply_with_events (older : List Event) :
    d.apply { s with events := older ++ s.events } = { d.apply s with events := older ++ (d.apply s).events } := by
  cases d with
  | update regs n emitted => simp [Change.apply]
  | stop => rfl
  | fault c => rfl

/-- With another fault record in the state, a change differs in that record alone, which stays unless the change is a
fault. -/
theorem Change.apply_with_fault (f : Option FaultRecord) (hrun : s.run = .running) :
    { d.apply { s with fault := f } with fault := (d.apply s).fault } = d.apply s ∧
    ((d.apply s).run = .faulted → d.apply { s with fault := f } = d.apply s) ∧
    ((d.apply s).run ≠ .faulted → (d.apply { s with fault := f }).fault = f) := by
  cases d with
  | update regs n emitted => simp [Change.apply, hrun]
  | stop => simp [Change.apply, halt]
  | fault c => simp [Change.apply, raise]

end

/-- An instruction's change is settled by the registers. -/
theorem exec_change (i : Instr) (s : State) :
    ∃ d : Change, ∀ s' : State, s'.regs = s.regs → exec i s' = .next (d.apply s') := by
  obtain ⟨t, -, h⟩ := exec_effect i s
  cases h with
  | @ldi r imm hr => exact ⟨.update (s.regs.set r.toNat imm) 3 [], fun s' hs' => by
      simp [exec, execLdi_valid imm s' hr, Change.apply, advance, hs']⟩
  | @prn r hr => exact ⟨.update s.regs 2 [.print s.regs[r.toNat]], fun s' hs' => by
      simp [exec, execPrn_valid s' hr, Change.apply, advance, emit, ← hs']⟩
  | @mul a b ha hb =>
    exact ⟨.update (s.regs.set a.toNat (narrow (s.regs[a.toNat].toNat * s.regs[b.toNat].toNat))) 3 [], fun s' hs' => by
      simp [exec, execMul_valid s' ha hb, Change.apply, advance, hs']⟩
  | hlt => exact ⟨.stop, fun _ _ => rfl⟩
  | ldiBad hr => exact ⟨.fault _, fun s' _ => execLdi_invalid _ s' hr⟩
  | prnBad hr => exact ⟨.fault _, fun s' _ => execPrn_invalid s' hr⟩
  | mulBadA ha => exact ⟨.fault _, fun s' _ => execMul_bad_a _ s' ha⟩
  | mulBadB ha hb => exact ⟨.fault _, fun s' _ => execMul_bad_b s' ha hb⟩

/-! ## What a step's change is settled by -/

/-- Two RUNNING states that a step cannot tell apart: the same parameters, registers, PC, and bytes of the instruction there. -/
structure SameStepInputs (s s' : State) : Prop where
  run : s'.run = .running
  params : s'.params = s.params
  regs : s'.regs = s.regs
  pc : s'.pc = s.pc
  bytes : ∀ k, k < bytesRead s → Memory.read s'.mem (s.pc + k) = Memory.read s.mem (s.pc + k)

section
variable {s s' : State}

theorem SameStepInputs.of_mem (hrun : s'.run = .running) (hparams : s'.params = s.params) (hregs : s'.regs = s.regs)
    (hpc : s'.pc = s.pc) (hmem : s'.mem = s.mem) : SameStepInputs s s' :=
  ⟨hrun, hparams, hregs, hpc, fun _ _ => by rw [hmem]⟩

theorem bytesRead_pos (s : State) : 0 < bytesRead s := by
  unfold bytesRead
  split
  · exact (operation_length_bounds _).1
  · exact Nat.one_pos

theorem bytesRead_of_opcode {o : Operation} (h : memRead s.pc s = .ok (opcodeByte o)) : bytesRead s = o.length := by
  simp [bytesRead, (memRead_eq_ok.1 h).2]

theorem SameStepInputs.memRead_eq (h : SameStepInputs s s') {k : Nat} (hk : k < bytesRead s) :
    memRead (s'.pc + k) s' = memRead (s.pc + k) s := by
  simp only [memRead, h.params, h.pc, h.bytes k hk]

theorem SameStepInputs.opcode_eq (h : SameStepInputs s s') : memRead s'.pc s' = memRead s.pc s :=
  h.memRead_eq (bytesRead_pos s)

/-- A step's change is settled by what `SameStepInputs` names. -/
theorem step_change (s : State) : ∃ d : Change, ∀ s', SameStepInputs s s' → step s' = .next (d.apply s') := by
  rcases fetch_cases s with ⟨hout, -⟩ | ⟨b, hb, hop, -⟩ | ⟨o, k, hop, -, hk, hend, -⟩ | ⟨i, hlen, hbytes, -⟩
  · refine ⟨.fault (.outOfBoundsMem s.pc), fun s' h => ?_⟩
    rw [step_of_pc_outside h.run (by rwa [h.params, h.pc]), h.pc]
    rfl
  · refine ⟨.update s.regs 1 [.diag b], fun s' h => ?_⟩
    rw [step_of_unknown h.run (h.opcode_eq.trans hb) hop, ← h.regs]
    rfl
  · refine ⟨.fault (.outOfBoundsMem (s.pc + k)), fun s' h => ?_⟩
    rw [step_of_missing_operand h.run (h.opcode_eq.trans hop) hk (by rw [h.pc, h.params, hend]), h.pc]
    rfl
  · obtain ⟨d, hd⟩ := exec_change i s
    refine ⟨d, fun s' h => ?_⟩
    have hread : bytesRead s = (encode i).length := by
      rw [encode_length]
      exact bytesRead_of_opcode (hbytes 0 (Nat.succ_pos _))
    rw [step_of_encode h.run fun k hk => (h.memRead_eq (hread ▸ hk)).trans (hbytes k hk), hd s' h.regs]

/-- The change a step made, and makes from every state with the same inputs. -/
theorem step_eq_change {t : State} (hstep : step s = .next t) :
    s.run = .running ∧ ∃ d : Change, t = d.apply s ∧ ∀ s', SameStepInputs s s' → step s' = .next (d.apply s') := by
  have hrun := (step_cases hstep).1
  obtain ⟨d, hd⟩ := step_change s
  have hself := hd s (.of_mem hrun rfl rfl rfl rfl)
  rw [hstep] at hself
  exact ⟨hrun, d, by cases hself; rfl, hd⟩

end

/-! ## The statements -/

/-- Settles O30: neither the events nor the fault record are among the inputs of a step. -/
theorem eventsAndFaultRecordAreNotRead : Obligations.EventsAndFaultRecordAreNotRead := by
  intro s t older f hstep
  obtain ⟨hrun, d, rfl, hd⟩ := step_eq_change hstep
  refine ⟨?_, d.apply { s with fault := f }, hd _ (.of_mem hrun rfl rfl rfl rfl), d.apply_with_fault s f hrun⟩
  rw [hd { s with events := older ++ s.events } (.of_mem hrun rfl rfl rfl rfl), d.apply_with_events]

/-- Settles O31: of Memory only the bytes of the instruction are among the inputs of a step. -/
theorem onlyTheInstructionBytesAreRead : Obligations.OnlyTheInstructionBytesAreRead := by
  intro s t m hstep hm
  obtain ⟨hrun, d, rfl, hd⟩ := step_eq_change hstep
  rw [hd { s with mem := m } ⟨hrun, rfl, rfl, rfl, hm⟩, d.apply_with_mem]

/-- Settles O25: the run state gates the step and is not read by an instruction, whose change the registers settle. -/
theorem runStateTransitions : Obligations.RunStateTransitions := by
  refine ⟨fun _ => rfl, fun s => ⟨fun ⟨t, ht⟩ => (step_cases ht).1, fun hrun => ?_⟩, fun s => step_halted,
    fun s => step_faulted, fun s t hs hstep => ?_, fun i s t r hexec => ?_⟩
  · obtain ⟨t, ht, -⟩ := step_effect hrun
    exact ⟨t, ht⟩
  · obtain ⟨hrun, heff⟩ := step_cases hstep
    exact ⟨heff.halted_iff hrun, (stepKeepsTheInvariant s t hs hstep).fault_iff.symm⟩
  · obtain ⟨d, hd⟩ := exec_change i s
    have ht := hd s rfl
    rw [hexec] at ht
    cases ht
    exact ⟨_, hd { s with run := r } rfl, d.apply_with_run s r⟩

end Sys2Proof.Machine

/-! Renaming the registers (10_state.md R11): a permutation of the registers commutes with every instruction. -/

namespace Sys2Proof.Machine

section
variable (π : Equiv.Perm (Fin 8))

theorem renameIndex_of_invalid {i : Byte} (h : ¬ i.toNat < 8) : renameIndex π i = i := dif_neg h

theorem renameIndex_toNat {i : Byte} (h : i.toNat < 8) : (renameIndex π i).toNat = (π ⟨i.toNat, h⟩).val := by
  have hlt := (π ⟨i.toNat, h⟩).isLt
  rw [renameIndex, dif_pos h, BitVec.toNat_ofNat]
  omega

theorem renameIndex_valid {i : Byte} (h : i.toNat < 8) : (renameIndex π i).toNat < 8 :=
  (renameIndex_toNat π h).trans_lt (Fin.isLt _)

/-- The renamed register holds what the register held. -/
theorem permuteRegs_getElem {i : Byte} (s : State) (h : i.toNat < 8) :
    (permuteRegs π s).regs[(renameIndex π i).toNat]'(renameIndex_valid π h) = s.regs[i.toNat] := by
  simp [permuteRegs, renameIndex_toNat π h]

/-- Writing a register and then renaming is renaming and then writing the renamed register. -/
theorem permuteRegs_set {i : Byte} (v : Byte) (s : State) (h : i.toNat < 8) :
    permuteRegs π { s with regs := s.regs.set i.toNat v } =
      { permuteRegs π s with
        regs := (permuteRegs π s).regs.set (renameIndex π i).toNat v (renameIndex_valid π h) } := by
  have hregs : (permuteRegs π { s with regs := s.regs.set i.toNat v }).regs =
      (permuteRegs π s).regs.set (renameIndex π i).toNat v (renameIndex_valid π h) := by
    apply Vector.ext
    intro j hj
    have hiff : i.toNat = (π.symm ⟨j, hj⟩).val ↔ (π ⟨i.toNat, h⟩).val = j := by
      rw [show (π ⟨i.toNat, h⟩).val = j ↔ π ⟨i.toNat, h⟩ = ⟨j, hj⟩ from (Fin.ext_iff (b := ⟨j, hj⟩)).symm,
        ← Equiv.eq_symm_apply, Fin.ext_iff]
    simp [permuteRegs, Vector.getElem_set, renameIndex_toNat π h, hiff]
  exact congrArg (fun regs => { s with regs := regs }) hregs

theorem permuteRegs_reset (p : Config.Params) : permuteRegs π (State.resetWith p) = State.resetWith p := by
  have hregs : (permuteRegs π (State.resetWith p)).regs = (State.resetWith p).regs := by
    apply Vector.ext
    intro j hj
    simp [permuteRegs, State.resetWith]
  exact congrArg (fun regs => { State.resetWith p with regs := regs }) hregs

/-- Each effect of an instruction, renamed, is the same effect of the renamed instruction. -/
theorem ExecEffect.rename {i : Instr} {s t : State} (h : ExecEffect s i t) :
    ExecEffect (permuteRegs π s) (renameInstr π i) (permuteRegs π t) := by
  have valid {r : Byte} : r.toNat < 8 → (renameIndex π r).toNat < 8 := renameIndex_valid π
  cases h with
  | @ldi r imm hr =>
    have heff : ExecEffect (permuteRegs π s) (renameInstr π (.ldi r imm)) _ := .ldi (valid hr)
    rwa [← permuteRegs_set π imm s hr] at heff
  | @prn r hr =>
    have heff : ExecEffect (permuteRegs π s) (renameInstr π (.prn r)) _ := .prn (valid hr)
    rwa [permuteRegs_getElem π s hr] at heff
  | @mul a b ha hb =>
    have heff : ExecEffect (permuteRegs π s) (renameInstr π (.mul a b)) _ := .mul (valid ha) (valid hb)
    rwa [permuteRegs_getElem π s ha, permuteRegs_getElem π s hb, ← permuteRegs_set π _ s ha] at heff
  | hlt => exact .hlt
  | ldiBad hr =>
    rw [renameInstr, renameIndex_of_invalid π hr]
    exact .ldiBad hr
  | prnBad hr =>
    rw [renameInstr, renameIndex_of_invalid π hr]
    exact .prnBad hr
  | mulBadA ha =>
    rw [renameInstr, renameIndex_of_invalid π ha]
    exact .mulBadA ha
  | mulBadB ha hb =>
    rw [renameInstr, renameIndex_of_invalid π hb]
    exact .mulBadB (valid ha) hb

/-- A step that finds no operation at the PC faults or skips a byte, and neither looks at a register. -/
theorem StepEffect.rename {s t : State} (h : StepEffect s t) (hop : opAtPc s = none) :
    StepEffect (permuteRegs π s) (permuteRegs π t) := by
  cases h with
  | fetchFault hk hbound hfirst hopcode => exact .fetchFault hk hbound hfirst hopcode
  | skip hb hunknown => exact .skip hb hunknown
  | exec _ hbytes _ => simp [opAtPc_of_bytes hbytes] at hop

end

theorem regRead_reset (p : Config.Params) {i : Byte} (hi : i.toNat ≤ 7) : regRead i (State.resetWith p) = .ok 0 := by
  rw [regRead_valid _ (Nat.lt_succ_of_le hi)]
  simp [State.resetWith]

/-- Settles O32: the effects of instructions and of steps without one commute with the renaming, and reset is fixed by it. -/
theorem registersAreInterchangeable : Obligations.RegistersAreInterchangeable := by
  refine fun π => ⟨fun i s t hexec => ((exec_cases hexec).rename π).exec_eq, fun s t hstep hop => ?_,
    fun p => ⟨permuteRegs_reset π p, fun i => regRead_reset p⟩⟩
  obtain ⟨hrun, heff⟩ := step_cases hstep
  exact (heff.rename π hop).step_eq hrun

end Sys2Proof.Machine

/-! Memory and the loader (20_memory.md R30 to R36; 70_reset_and_hazards.md R130 to R133): bytes stored are read back, and a
launched machine is the reset machine with its program from address 0. -/

namespace Sys2Proof.Machine

/-! ## Reset -/

/-- Settles O1: each field of `State.resetWith`, read by the model's accessors. -/
theorem resetHoldsTheGivenValues : Obligations.ResetHoldsTheGivenValues :=
  ⟨fun p => ⟨fun _ => regRead_reset p, rfl, rfl, rfl,
    fun _ haddr => memRead_inside (s := State.resetWith p) haddr, rfl, rfl⟩, rfl⟩

theorem MachineInv.reset {p : Config.Params} (hp : p.wf) : MachineInv (State.resetWith p) :=
  .of_running hp (Nat.zero_le _) Memory.wf_nil (fun _ hc => absurd hc List.not_mem_nil) rfl rfl

/-- Settles O37: the reset state is RUNNING, at address 0, with no cell listed. -/
theorem resetMeetsTheInvariant : Obligations.ResetMeetsTheInvariant :=
  ⟨fun _ => MachineInv.reset, MachineInv.reset (by decide)⟩

/-! ## Reads and writes -/

/-- Settles O20: the bound decides both accesses, and inside it `Memory.read_write` says what a write does. -/
theorem memoryReadsWhatWasWritten : Obligations.MemoryReadsWhatWasWritten := by
  refine fun addr v s => ⟨fun h => ⟨memRead_outside h, memWrite_outside v h⟩, memRead_inside, fun hm h => ?_⟩
  have hread (a : Nat) := Memory.read_write hm addr v a
  refine ⟨_, memWrite_inside v h, ?_, fun a ha => ?_, Memory.wf_write addr v hm, regRead_congr rfl, rfl, rfl, rfl, rfl, rfl⟩
  · exact memRead_eq_ok.2 ⟨h, (hread addr).trans (if_pos rfl)⟩
  · simp only [memRead, hread, if_neg ha]

/-- A memory that lists no cell from `n` on reads the reset value there. -/
theorem Memory.read_of_inside {m : Memory} {n a : Nat} (h : ∀ c ∈ m, c.1 < n) (ha : n ≤ a) :
    Memory.read m a = Memory.unlisted := by
  induction m with
  | nil => rfl
  | cons c m ih =>
    have hc : c.1 ≠ a := Nat.ne_of_lt ((h c List.mem_cons_self).trans_le ha)
    simp only [Memory.read, if_neg hc]
    exact ih fun d hd => h d (List.mem_cons_of_mem _ hd)

/-- Settles O21: inside Memory the two read the same, outside it neither lists a cell, and the canonical form is unique. -/
theorem equalReadsMakeEqualMemory : Obligations.EqualReadsMakeEqualMemory := by
  intro s t hs ht hparams hsame
  refine Memory.ext_read hs.mem_wf ht.mem_wf fun a => ?_
  rcases Nat.lt_or_ge a s.params.memSize with ha | ha
  · have hread := hsame a
    rw [memRead_inside ha, memRead_inside (hparams ▸ ha)] at hread
    exact (Except.ok.inj hread).symm
  · rw [Memory.read_of_inside hs.mem_inside ha, Memory.read_of_inside ht.mem_inside (hparams ▸ ha)]

/-! ## Stored bytes -/

section
variable {s : State} {vs : List Byte} {addr : Nat}

theorem memRead_storeBytes_inside (hm : Memory.wf s.mem) (hfit : addr + vs.length ≤ s.params.memSize) {k : Nat}
    (hk : k < vs.length) : memRead (addr + k) (storeBytes addr vs s) = .ok vs[k] := by
  have hcell : addr + k < s.params.memSize := by omega
  rw [memRead_inside (by simpa using hcell), read_storeBytes vs addr hm, dif_pos ⟨by omega, by omega, hcell⟩]
  simp

theorem memRead_storeBytes_outside (hm : Memory.wf s.mem) {a : Nat} (ha : a < addr ∨ addr + vs.length ≤ a) :
    memRead a (storeBytes addr vs s) = memRead a s := by
  simp only [memRead, storeBytes_params, read_storeBytes vs addr hm]
  rw [dif_neg (by omega)]

end

/-- Settles O12: the word's bytes are in memory at the PC, they begin with the encoding of the instruction the word decodes
to, and so the step is that instruction's. -/
theorem placedWordIsTheNextInstruction : Obligations.PlacedWordIsTheNextInstruction := by
  intro s nbits w i hs hrun hfit hword
  obtain ⟨hinstr, -, -⟩ := decodedBytesAreTheEncoding (bytesOfWord nbits w)
  have hprefix : encode i <+: bytesOfWord nbits w := hinstr i (decodeTableWord_eq_some.1 hword)
  have hlen : (bytesOfWord nbits w).length = 3 := rfl
  have hpc : (s.withFetchWord nbits w).pc = s.pc := storeBytes_pc _ _ s
  refine ⟨step_of_encode ((storeBytes_run _ _ s).trans hrun) fun k hk => ?_,
    fun addr haddr => memRead_storeBytes_outside hs.mem_wf (hlen ▸ haddr), regRead_congr (storeBytes_regs _ _ s),
    ⟨storeBytes_run _ _ s, storeBytes_fault _ _ s, storeBytes_params _ _ s⟩, hpc, storeBytes_events _ _ s⟩
  rw [hpc, hprefix.getElem hk]
  exact memRead_storeBytes_inside hs.mem_wf (hlen ▸ hfit) (hk.trans_le hprefix.length_le)

/-! ## Launch -/

section
variable {p : Config.Params} {prog : List Byte}

theorem launch_of_fits (hp : p.wf) (hfit : prog.length ≤ p.memSize) :
    launch p prog = .next (storeBytes 0 prog (State.resetWith p)) := by
  rw [launch, if_pos hp]
  exact if_neg (Nat.not_lt.2 hfit)

theorem launch_of_too_long (hp : p.wf) (hlong : p.memSize < prog.length) : launch p prog = .refused .programTooLong := by
  rw [launch, if_pos hp]
  exact if_pos hlong

theorem launch_of_not_wf (hp : ¬ p.wf) : launch p prog = .refused .parametersNotAdmitted := if_neg hp

theorem launch_eq_next {s : State} (h : launch p prog = .next s) :
    p.wf ∧ s = storeBytes 0 prog (State.resetWith p) := by
  by_cases hp : p.wf
  · rcases Nat.lt_or_ge p.memSize prog.length with hlong | hfit
    · simp [launch_of_too_long hp hlong] at h
    · rw [launch_of_fits hp hfit] at h
      exact ⟨hp, by cases h; rfl⟩
  · simp [launch_of_not_wf hp] at h

theorem MachineInv.storeBytes {s : State} (h : MachineInv s) (hrun : s.run = .running) (addr : Nat) (vs : List Byte) :
    MachineInv (storeBytes addr vs s) := by
  refine .of_running ?_ ?_ (storeBytes_wf vs addr h.mem_wf) ?_ ((storeBytes_run vs addr s).trans hrun)
    ((storeBytes_fault vs addr s).trans (h.fault_eq_none (by simp [hrun])))
  · simpa using h.params_wf
  · simpa using h.pc_le
  · simpa using storeBytes_inside vs addr h.mem_inside

end

/-- Settles O38: a launched machine is a reset one with bytes stored. -/
theorem launchedMachinesMeetTheInvariant : Obligations.LaunchedMachinesMeetTheInvariant := by
  intro p prog s hlaunch
  obtain ⟨hp, rfl⟩ := launch_eq_next hlaunch
  exact (MachineInv.reset hp).storeBytes rfl 0 prog

/-- Settles O2, by the two tests of `launch` and `loadProgram`: admitted parameters, and a program that fits. -/
theorem launchStoresTheProgramFromAddressZero : Obligations.LaunchStoresTheProgramFromAddressZero := by
  intro p prog
  refine ⟨fun hp hfit => ?_, launch_of_too_long, fun hbad => launch_of_not_wf fun ⟨hsize, hterm⟩ => ?_⟩
  · have hm : Memory.wf (State.resetWith p).mem := Memory.wf_nil
    refine ⟨_, launch_of_fits hp hfit, fun k hk => ?_, fun k hk hcell => ?_, regRead_congr (by simp),
      storeBytes_pc _ _ _, storeBytes_run _ _ _, storeBytes_fault _ _ _, storeBytes_events _ _ _, storeBytes_params _ _ _⟩
    · have hread := memRead_storeBytes_inside (addr := 0) hm ((Nat.zero_add _).trans_le hfit) hk
      rwa [Nat.zero_add] at hread
    · rw [memRead_storeBytes_outside hm (.inr (by omega))]
      exact memRead_inside (s := State.resetWith p) hcell
  · exact hbad.elim (Nat.not_lt.2 hsize) hterm

end Sys2Proof.Machine

/-! Whole runs (40_run_loop.md R70, R77, R78): what every step keeps, every run keeps, and a run is over within
`MEM_SIZE + 1` steps. -/

namespace Sys2Proof.Machine

section
variable {s t : State}

theorem ended_eq_true_iff : ended s = true ↔ s.run ≠ .running := decide_eq_true_iff

theorem step_effect_of_not_ended (h : ¬ ended s = true) : ∃ t, step s = .next t ∧ StepEffect s t :=
  step_effect (not_not.1 (mt ended_eq_true_iff.2 h))

theorem runFor_succ_of_step {n : Nat} (h : step s = .next t) : runFor (n + 1) s = runFor n t := by simp [runFor, h]

theorem runFor_of_ended (h : ended s = true) (n : Nat) : runFor n s = s := by
  have hrun := ended_eq_true_iff.1 h
  cases n with
  | zero => rfl
  | succ n =>
    cases hs : s.run with
    | running => exact absurd hs hrun
    | halted => simp [runFor, step_halted hs]
    | faulted => simp [runFor, step_faulted hs]

/-- What every step keeps holds all along a run. -/
theorem runFor_keeps {P : State → Prop} (hstep : ∀ s t, P s → step s = .next t → P t) (n : Nat) (hs : P s) :
    P (runFor n s) := by
  induction n generalizing s with
  | zero => exact hs
  | succ n ih =>
    by_cases hend : ended s = true
    · rwa [runFor_of_ended hend]
    · obtain ⟨t, ht, -⟩ := step_effect_of_not_ended hend
      rw [runFor_succ_of_step ht]
      exact ih (hstep s t hs ht)

/-- A step that does not end the run moves the PC up, and no further than the end of Memory. -/
theorem StepEffect.ended_or_pc_lt (h : StepEffect s t) :
    ended t = true ∨ (s.pc < t.pc ∧ t.pc ≤ t.params.memSize) := by
  cases h with
  | fetchFault => exact .inl rfl
  | skip hb hop => exact .inr ⟨Nat.lt_succ_self _, (memRead_eq_ok.1 hb).1⟩
  | @exec i _ hlen hbytes heff =>
    rcases heff.outcome with ⟨r, -, -, rfl⟩ | ⟨-, rfl⟩ | ⟨-, -, -, -, hpc⟩
    · exact .inl rfl
    · exact .inl rfl
    · have hpos := (operation_length_bounds i.operation).1
      exact .inr ⟨by omega, by rw [heff.params_eq, hpc]; exact hlen⟩

/-- R78: each step uses up at least one of the `MEM_SIZE + 1 - pc` steps that are left. -/
theorem ended_runFor {n : Nat} (hpc : s.pc ≤ s.params.memSize) (hn : s.params.memSize + 1 - s.pc ≤ n) :
    ended (runFor n s) = true := by
  induction n generalizing s with
  | zero => omega
  | succ n ih =>
    by_cases hend : ended s = true
    · rwa [runFor_of_ended hend]
    · obtain ⟨t, ht, heff⟩ := step_effect_of_not_ended hend
      rw [runFor_succ_of_step ht]
      rcases heff.ended_or_pc_lt with htend | ⟨hlt, hle⟩
      · rwa [runFor_of_ended htend]
      · have hparams := heff.params_eq
        exact ih hle (by rw [hparams]; omega)

/-- Once a run is over, more steps change nothing. -/
theorem runFor_of_le {m n : Nat} (hend : ended (runFor m s) = true) (hmn : m ≤ n) : runFor n s = runFor m s := by
  induction m generalizing n s with
  | zero => exact runFor_of_ended hend n
  | succ m ih =>
    by_cases hs : ended s = true
    · rw [runFor_of_ended hs, runFor_of_ended hs]
    · obtain ⟨t, ht, -⟩ := step_effect_of_not_ended hs
      obtain ⟨n, rfl⟩ : ∃ k, n = k + 1 := ⟨n - 1, by omega⟩
      rw [runFor_succ_of_step ht] at hend ⊢
      rw [runFor_succ_of_step ht]
      exact ih hend (Nat.le_of_succ_le_succ hmn)

end

/-- Settles O27: no effect of a step touches Memory or the parameters, and a run is made of steps. -/
theorem runsNeverWriteMemory : Obligations.RunsNeverWriteMemory := by
  have hstep : ∀ s t : State, step s = .next t → t.mem = s.mem ∧ t.params = s.params := fun s t h =>
    ⟨(step_cases h).2.mem_eq, (step_cases h).2.params_eq⟩
  refine ⟨hstep, fun n s => ?_⟩
  refine runFor_keeps (P := fun t => t.mem = s.mem ∧ t.params = s.params) (fun t u ⟨hm, hp⟩ hu => ?_) n ⟨rfl, rfl⟩
  obtain ⟨hmem, hparams⟩ := hstep t u hu
  exact ⟨hmem.trans hm, hparams.trans hp⟩

/-- Settles O40: the run has ended after `MEM_SIZE + 1 - pc` steps, and `runCore` takes at least as many. -/
theorem everyRunEndsWithinMemSizePlusOneSteps : Obligations.EveryRunEndsWithinMemSizePlusOneSteps := by
  intro s hpc
  have hend : ended (runFor (s.params.memSize + 1 - s.pc) s) = true := ended_runFor hpc le_rfl
  refine ⟨hend, fun n hn => ?_⟩
  have hcore : runCore s = runFor (s.params.memSize + 1 - s.pc) s := runFor_of_le hend (Nat.sub_le _ _)
  rw [hcore, runFor_of_le hend hn]

/-- Settles O41: the final state of the run has ended and meets the invariant, which says how it can have ended. -/
theorem runsEndHaltedOrFaulted : Obligations.RunsEndHaltedOrFaulted := by
  intro p prog s hlaunch
  have hs : MachineInv s := launchedMachinesMeetTheInvariant p prog s hlaunch
  have hend : ended (runCore s) = true := ended_runFor hs.pc_le (Nat.sub_le _ _)
  have hinv : MachineInv (runCore s) := runFor_keeps stepKeepsTheInvariant _ hs
  rcases hrun : (runCore s).run with _ | _ | _
  · exact absurd hrun (ended_eq_true_iff.1 hend)
  · exact .inl ⟨rfl, hinv.halted_at hrun, hinv.fault_eq_none (by simp [hrun])⟩
  · obtain ⟨⟨c, atPc⟩, hf⟩ := Option.ne_none_iff_exists'.1 (hinv.fault_iff.2 hrun)
    obtain ⟨hat, hc⟩ := hinv.fault_at _ hf
    obtain rfl : atPc = (runCore s).pc := hat
    exact .inr ⟨rfl, c, hf, hc⟩

end Sys2Proof.Machine

/-! Registers, the ALU and the instructions one by one (41_register_ops.md R86; 42_alu.md R90 to R95; 43_halt.md R100;
40_run_loop.md R71 to R75): result, frame and faults of each. -/

namespace Sys2Proof.Machine

/-! ## Registers -/

/-- Settles O19: the index decides both accesses, and `regRead_set` says what a write does. -/
theorem registerAccessIsBoundsChecked : Obligations.RegisterAccessIsBoundsChecked := by
  refine fun i v s => ⟨fun h => ?_, fun h => ?_⟩
  · have hi : ¬ i.toNat < 8 := by omega
    exact ⟨regRead_invalid s hi, regWrite_invalid v s hi⟩
  · have hi : i.toNat < 8 := by omega
    exact ⟨⟨_, regRead_valid s hi⟩, _, regWrite_valid v s hi, (regRead_set v hi rfl i).trans (if_pos rfl),
      sameRegsExcept_of_set hi rfl, rfl, rfl, ⟨rfl, rfl, rfl⟩, memRead_congr rfl rfl⟩

/-! ## The ALU -/

theorem aluApply_of_result {op : OpId} {a b v : Byte} {s : State} (ha : a.toNat < 8) (hb : b.toNat < 8)
    (hv : aluResult op s.regs[a.toNat] s.regs[b.toNat] = .ok v) :
    aluApply op a b s = .ok { s with regs := s.regs.set a.toNat v } := by
  rw [aluApply_valid op s ha hb, hv]
  rfl

theorem aluResult_unsupported {op : OpId} (hadd : op ≠ .add) (hmul : op ≠ .decoded .mul) (va vb : Byte) :
    aluResult op va vb = .error (.unsupportedOperation op) := by
  cases op with
  | add => exact absurd rfl hadd
  | decoded o =>
    cases o with
    | mul => exact absurd rfl hmul
    | ldi | prn | hlt => rfl

/-- Settles O22: a bad index stops the ALU, the first before the second; on valid ones it writes `aluResult` to `x[a]`. -/
theorem aluAppliesItsTwoOperations : Obligations.AluAppliesItsTwoOperations := by
  intro a b s
  refine ⟨fun op ha => aluApply_bad_a op b s (by omega), fun op ha hb => aluApply_bad_b op s (by omega) (by omega),
    fun ha hb => ?_⟩
  replace ha : a.toNat < 8 := by omega
  replace hb : b.toNat < 8 := by omega
  have writes {op : OpId} {n : Nat} (hop : aluResult op s.regs[a.toNat] s.regs[b.toNat] = .ok (narrow n)) :
      ∃ t v, aluApply op a b s = .ok t ∧ regRead a t = .ok v ∧ v.toNat = n % 256 ∧
        SameRegsExcept a s t ∧ t.pc = s.pc ∧ t.events = s.events ∧ SameStatus s t ∧ SameMemory s t := by
    exact ⟨_, _, aluApply_of_result ha hb hop, (regRead_set _ ha rfl a).trans (if_pos rfl), narrow_toNat n,
      sameRegsExcept_of_set ha rfl, rfl, rfl, ⟨rfl, rfl, rfl⟩, memRead_congr rfl rfl⟩
  refine ⟨_, _, regRead_valid s ha, regRead_valid s hb, writes rfl, writes rfl, fun op hadd hmul => ?_⟩
  rw [aluApply_valid op s ha hb, aluResult_unsupported hadd hmul]
  rfl

/-! ## Causes -/

/-- Settles O23: the code is read off a FAULTED state's record alone, and `raise` writes that record. -/
theorem causeCodesAreNumbered : Obligations.CauseCodesAreNumbered := by
  refine ⟨fun s hrun => ?_, fun s c => ?_⟩
  · unfold causeCode
    split
    · next hfaulted _ => exact absurd hfaulted hrun
    · rfl
  · cases c <;> rfl

/-! ## Fetch and skip -/

/-- Settles O11: where the bytes at the PC are the instruction's encoding, the fetch gives that instruction. -/
theorem stepRunsTheDecodedInstruction : Obligations.StepRunsTheDecodedInstruction :=
  fun _ _ => step_of_encode

/-- A fetch that gives something has read it at the PC: an unknown byte, or an instruction's encoding. -/
theorem fetch_eq_ok {s : State} {d : Decoded} (h : fetch s = .ok d) :
    (∃ b, memRead s.pc s = .ok b ∧ d = .unknown b) ∨
    (∃ i, memRead s.pc s = .ok (opcodeByte i.operation) ∧ d = .instr i) := by
  rcases fetch_cases s with ⟨-, hf⟩ | ⟨b, hb, -, hf⟩ | ⟨o, k, -, -, -, -, hf⟩ | ⟨i, -, hbytes, hf⟩
  · simp [hf] at h
  · exact .inl ⟨b, hb, (Except.ok.inj (hf.symm.trans h)).symm⟩
  · simp [hf] at h
  · exact .inr ⟨i, hbytes 0 (Nat.succ_pos _), (Except.ok.inj (hf.symm.trans h)).symm⟩

/-- Settles O18, by what a fetch can give and by the fault of a PC without a cell. -/
theorem fetchReadsTheByteAtThePcOrFaults : Obligations.FetchReadsTheByteAtThePcOrFaults := by
  intro s
  refine ⟨fun op hop => ?_, fun i hi => ?_, fun hrun hpc => ?_⟩
  · rcases fetch_eq_ok hop with ⟨b, hb, h⟩ | ⟨i, -, h⟩
    · cases h
      exact hb
    · cases h
  · rcases fetch_eq_ok hi with ⟨b, -, h⟩ | ⟨i', hopcode, h⟩
    · cases h
    · cases h
      exact hopcode
  · exact ⟨⟨_, step_of_pc_outside hrun hpc, faultedFrom_raise _ s⟩, fun hs => Nat.le_antisymm hs.pc_le hpc⟩

/-- Settles O17: the four bytes are the opcode table, so the byte is unknown and is skipped. -/
theorem unknownOpcodeIsSkipped : Obligations.UnknownOpcodeIsSkipped := by
  intro s b hrun hb h01 h47 h82 hA2
  have hop : decodeOp b = none := by
    rw [decodeOp_eq, if_neg h82, if_neg h47, if_neg hA2, if_neg h01]
  exact ⟨_, step_of_unknown hrun hb hop, rfl, rfl, hrun, regRead_congr rfl, ⟨rfl, rfl, rfl⟩, memRead_congr rfl rfl⟩

/-! ## MUL and HLT -/

theorem step_mul {s : State} {a b : Byte} (hrun : s.run = .running) (hop : memRead s.pc s = .ok (opcodeByte .mul))
    (ha : memRead (s.pc + 1) s = .ok a) (hb : memRead (s.pc + 2) s = .ok b) : step s = exec (.mul a b) s :=
  step_of_encode hrun fun
    | 0, _ => hop
    | 1, _ => ha
    | 2, _ => hb

/-- Settles O15: two valid indices are the ALU's product and a PC advance, a bad one is a fault, the first before the
second; from memory a missing operand byte is a fault of the fetch. -/
theorem mulWritesTheLowByteOfTheProduct : Obligations.MulWritesTheLowByteOfTheProduct := by
  intro s a b
  refine ⟨fun ha hb => ?_, fun ha => ⟨_, execMul_bad_a b s (by omega), faultedFrom_raise _ s⟩,
    fun ha hb => ⟨_, execMul_bad_b s (by omega) (by omega), faultedFrom_raise _ s⟩,
    fun hrun (hop : memRead s.pc s = .ok (opcodeByte .mul)) => ⟨fun h1 => ?_, fun h1 h2 => ?_, step_mul hrun hop⟩⟩
  · replace ha : a.toNat < 8 := by omega
    replace hb : b.toNat < 8 := by omega
    exact ⟨_, _, _, _, execMul_valid s ha hb, regRead_valid s ha, regRead_valid s hb,
      (regRead_set _ ha rfl a).trans (if_pos rfl), narrow_toNat _, sameRegsExcept_of_set ha rfl, rfl, rfl,
      ⟨rfl, rfl, rfl⟩, memRead_congr rfl rfl⟩
  · have hpc : s.pc < s.params.memSize := (memRead_eq_ok.1 hop).1
    exact ⟨_, step_of_missing_operand hrun hop (by decide) (by omega), faultedFrom_raise _ s⟩
  · exact ⟨_, step_of_missing_operand hrun hop (by decide) (by omega), faultedFrom_raise _ s⟩

/-- Settles O16: HLT changes the run state alone, and in HALTED no step exists. -/
theorem hltStopsWithThePcUnmoved : Obligations.HltStopsWithThePcUnmoved := by
  exact fun s => ⟨⟨halt s, rfl, rfl, rfl, regRead_congr rfl, memRead_congr rfl rfl, rfl, rfl, rfl, step_halted rfl⟩,
    fun hrun hop => step_of_encode (i := .hlt) hrun fun
      | 0, _ => hop⟩

end Sys2Proof.Machine

/-! The console (10_state.md R21; 00_scope.md R5) and PRN, which it shows (41_register_ops.md R86). -/

namespace Sys2Proof.Machine

/-! ## Numerals -/

theorem digit_toNat {d : Nat} (hd : d < 10) : (digit d).toNat = 48 + d := by
  revert d; decide

theorem digit_bounds {d : Nat} (hd : d < 10) : '0' ≤ digit d ∧ digit d ≤ '9' := by
  revert d; decide

theorem digit_eq_zero_iff {d : Nat} (hd : d < 10) : digit d = '0' ↔ d = 0 := by
  revert d; decide

/-- A byte has one, two or three digits, the first of several not 0. -/
theorem decimalNumeral_cases (v : Byte) :
    (∃ d, d < 10 ∧ v.toNat = d ∧ decimalNumeral v = [digit d]) ∨
    (∃ d e, 0 < d ∧ d < 10 ∧ e < 10 ∧ v.toNat = 10 * d + e ∧ decimalNumeral v = [digit d, digit e]) ∨
    (∃ d e f, 0 < d ∧ d < 10 ∧ e < 10 ∧ f < 10 ∧ v.toNat = 10 * (10 * d + e) + f ∧
      decimalNumeral v = [digit d, digit e, digit f]) := by
  have hv := v.isLt
  by_cases h1 : v.toNat < 10
  · exact .inl ⟨_, h1, rfl, by simp [decimalNumeral, h1]⟩
  by_cases h2 : v.toNat < 100
  · exact .inr (.inl ⟨v.toNat / 10, v.toNat % 10, by omega, by omega, by omega, by omega,
      by simp [decimalNumeral, h1, h2]⟩)
  · exact .inr (.inr ⟨v.toNat / 100, v.toNat / 10 % 10, v.toNat % 10, by omega, by omega, by omega, by omega, by omega,
      by simp [decimalNumeral, h1, h2]⟩)

theorem decimalNumeral_value (v : Byte) :
    (decimalNumeral v).foldl (fun n c => 10 * n + (c.toNat - 48)) 0 = v.toNat := by
  rcases decimalNumeral_cases v with
    ⟨d, hd, hv, h⟩ | ⟨d, e, hpos, hd, he, hv, h⟩ | ⟨d, e, f, hpos, hd, he, hf, hv, h⟩
  · simp [h, digit_toNat hd, hv]
  · simp [h, digit_toNat hd, digit_toNat he, hv]
  · simp [h, digit_toNat hd, digit_toNat he, digit_toNat hf, hv]

theorem decimalNumeral_digits (v : Byte) : ∀ c ∈ decimalNumeral v, '0' ≤ c ∧ c ≤ '9' := by
  rcases decimalNumeral_cases v with ⟨d, hd, -, h⟩ | ⟨d, e, -, hd, he, -, h⟩ | ⟨d, e, f, -, hd, he, hf, -, h⟩
  · simp [h, digit_bounds hd]
  · simp [h, digit_bounds hd, digit_bounds he]
  · simp [h, digit_bounds hd, digit_bounds he, digit_bounds hf]

/-- The first digit is 0 only where it is the whole numeral. -/
theorem decimalNumeral_head_eq_zero_iff (v : Byte) : (decimalNumeral v).head? = some '0' ↔ v = 0 := by
  have hzero : v = 0 ↔ v.toNat = 0 := BitVec.toNat_inj.symm
  rcases decimalNumeral_cases v with
    ⟨d, hd, hv, h⟩ | ⟨d, e, hpos, hd, he, hv, h⟩ | ⟨d, e, f, hpos, hd, he, hf, hv, h⟩
  · rw [h, hzero, hv, List.head?_cons, Option.some.injEq, digit_eq_zero_iff hd]
  · rw [h, hzero, hv, List.head?_cons, Option.some.injEq, digit_eq_zero_iff hd]
    omega
  · rw [h, hzero, hv, List.head?_cons, Option.some.injEq, digit_eq_zero_iff hd]
    omega

theorem decimalNumeral_length (v : Byte) : 1 ≤ (decimalNumeral v).length ∧ (decimalNumeral v).length ≤ 3 := by
  rcases decimalNumeral_cases v with ⟨d, -, -, h⟩ | ⟨d, e, -, -, -, -, h⟩ | ⟨d, e, f, -, -, -, -, -, h⟩
  · simp [h]
  · simp [h]
  · simp [h]

/-! ## Streams -/

section
variable (p : Config.Params) (k : Nat)

theorem stdoutFrom_cons (e : Event) (es : List Event) :
    stdoutFrom p k (e :: es) = stdoutFrom p k [e] ++ stdoutFrom p (k + 1) es := by
  cases e with
  | print v => simp [stdoutFrom]
  | diag b => cases h : p.diagStream <;> simp [stdoutFrom, h]

theorem stderrFrom_cons (e : Event) (es : List Event) :
    stderrFrom p k (e :: es) = stderrFrom p k [e] ++ stderrFrom p (k + 1) es := by
  cases e with
  | print v => simp [stderrFrom]
  | diag b => cases h : p.diagStream <;> simp [stderrFrom, h]

end

/-- A stream that shows its events one by one shows an appended event after the others, at its own position. -/
theorem stream_append_singleton {f : Nat → List Event → List Char} (hnil : ∀ k, f k [] = [])
    (hcons : ∀ k e es, f k (e :: es) = f k [e] ++ f (k + 1) es) (k : Nat) (es : List Event) (e : Event) :
    f k (es ++ [e]) = f k es ++ f (k + es.length) [e] := by
  induction es generalizing k with
  | nil => simp [hnil]
  | cons e' es ih =>
    rw [List.cons_append, hcons, ih, hcons k e' es, List.append_assoc, List.length_cons, Nat.add_right_comm, Nat.add_assoc]

theorem stdout_emit (e : Event) (s : State) : stdout (emit e s) = stdout s ++ stdoutFrom s.params s.events.length [e] := by
  have happend := stream_append_singleton (fun _ => rfl) (stdoutFrom_cons s.params) 0 s.events e
  rwa [Nat.zero_add] at happend

theorem stderr_emit (e : Event) (s : State) : stderr (emit e s) = stderr s ++ stderrFrom s.params s.events.length [e] := by
  have happend := stream_append_singleton (fun _ => rfl) (stderrFrom_cons s.params) 0 s.events e
  rwa [Nat.zero_add] at happend

theorem stdout_emit_print (v : Byte) (s : State) :
    stdout (emit (.print v) s) = stdout s ++ (decimalNumeral v ++ s.params.lineTerminator) := by
  simp [stdout_emit, stdoutFrom, printedLine]

/-- Settles O42: an event at the end of the stream adds to each stream what it shows there alone. -/
theorem eventsShowOnTheirStream : Obligations.EventsShowOnTheirStream := by
  refine ⟨fun s hs => ?_, fun s v => ⟨stdout_emit_print v s, ?_⟩, fun s b hout => ?_, fun s b herr => ?_⟩
  · simp [stdout, stderr, hs, stdoutFrom, stderrFrom]
  · simp [stderr_emit, stderrFrom]
  · simp [stdout_emit, stderr_emit, stdoutFrom, stderrFrom, hout]
  · simp [stdout_emit, stderr_emit, stdoutFrom, stderrFrom, herr]

/-- Settles O24: the numeral by the number of its digits, the stream by induction on the events. -/
theorem consoleShowsShortestNumerals : Obligations.ConsoleShowsShortestNumerals := by
  refine ⟨fun v => ⟨decimalNumeral_value v, decimalNumeral_digits v, decimalNumeral_head_eq_zero_iff v,
    fun hv => hv ▸ rfl, decimalNumeral_length v⟩, fun s herr => ?_⟩
  unfold stdout
  generalize 0 = k
  induction s.events generalizing k with
  | nil => rfl
  | cons e es ih =>
    rw [stdoutFrom_cons, ih, List.flatMap_cons]
    cases e with
    | print v => simp [stdoutFrom, printedLine]
    | diag b => simp [stdoutFrom, herr]

/-! ## PRN -/

theorem step_prn {s : State} {r : Byte} (hrun : s.run = .running) (hop : memRead s.pc s = .ok (opcodeByte .prn))
    (hr : memRead (s.pc + 1) s = .ok r) : step s = exec (.prn r) s :=
  step_of_encode hrun fun
    | 0, _ => hop
    | 1, _ => hr

/-- Settles O14: a valid index emits the register's value, a bad one is a fault; from memory a missing operand byte is a
fault of the fetch. -/
theorem prnEmitsTheRegister : Obligations.PrnEmitsTheRegister := by
  intro s r
  refine ⟨fun hr => ?_, fun hr => ⟨_, execPrn_invalid s (by omega), faultedFrom_raise _ s⟩,
    fun hrun (hop : memRead s.pc s = .ok (opcodeByte .prn)) => ⟨fun h1 => ?_, step_prn hrun hop⟩⟩
  · replace hr : r.toNat < 8 := by omega
    exact ⟨_, _, execPrn_valid s hr, regRead_valid s hr, rfl, stdout_emit_print _ s, regRead_congr rfl, rfl,
      ⟨rfl, rfl, rfl⟩, memRead_congr rfl rfl⟩
  · have hpc : s.pc < s.params.memSize := (memRead_eq_ok.1 hop).1
    exact ⟨_, step_of_missing_operand hrun hop (by decide) (by omega), faultedFrom_raise _ s⟩

end Sys2Proof.Machine

/-! The program image (30_encoding.md R62; 60_exceptions.md R114): what is left of a line without its blanks and its
comment, and the byte its digits stand for. -/

namespace Sys2Proof.Machine

/-! ## The content of a line -/

theorem ne_hash_of_isBlank {c : Char} (h : isBlank c = true) : c ≠ '#' := by
  rintro rfl
  revert h
  decide

theorem dropWhile_of_head {p : Char → Bool} {xs : List Char} (h : ∀ c, xs.head? = some c → p c = false) :
    xs.dropWhile p = xs := by
  cases xs with
  | nil => rfl
  | cons c xs => exact List.dropWhile_cons_of_neg (by simp [h c rfl])

section
variable {before content after tail : List Char}

theorem takeWhile_ne_hash {text : List Char} (htext : ∀ c ∈ text, c ≠ '#') (htail : isTail tail) :
    (text ++ tail).takeWhile (· != '#') = text := by
  rw [List.takeWhile_append_of_pos fun c hc => by simpa using htext c hc]
  rcases htail with rfl | ⟨comment, rfl⟩
  · simp
  · simp

/-- Blanks around a content and a comment behind it are dropped, and nothing else. -/
theorem lineContent_eq (hbefore : ∀ c ∈ before, isBlank c = true) (hafter : ∀ c ∈ after, isBlank c = true)
    (hcontent : isContent content) (htail : isTail tail) : lineContent (before ++ content ++ after ++ tail) = content := by
  obtain ⟨hhead, hlast, hhash⟩ := hcontent
  have htext : ∀ c ∈ before ++ content ++ after, c ≠ '#' := by
    intro c hc
    rcases List.mem_append.1 hc with hc | hc
    · rcases List.mem_append.1 hc with hc | hc
      · exact ne_hash_of_isBlank (hbefore c hc)
      · exact hhash c hc
    · exact ne_hash_of_isBlank (hafter c hc)
  rw [lineContent, takeWhile_ne_hash htext htail, List.append_assoc, List.dropWhile_append_of_pos hbefore]
  cases content with
  | nil => simp [List.dropWhile_eq_nil_iff.2 hafter]
  | cons c cs =>
    have hfront : ((c :: cs) ++ after).dropWhile isBlank = (c :: cs) ++ after := dropWhile_of_head hhead
    have hback : (c :: cs).reverse.dropWhile isBlank = (c :: cs).reverse :=
      dropWhile_of_head fun d hd => hlast d (by rwa [List.head?_reverse] at hd)
    rw [hfront, List.reverse_append, List.dropWhile_append_of_pos fun d hd => hafter d (List.mem_reverse.1 hd), hback,
      List.reverse_reverse]

end

/-! ## The digits of a content -/

section
variable {text : List Char}

theorem binaryValue_of_bits (htext : ∀ c ∈ text, c = '0' ∨ c = '1') (acc : Nat) :
    binaryValue acc text = some (text.foldl (fun n c => 2 * n + (if c = '1' then 1 else 0)) acc) := by
  induction text generalizing acc with
  | nil => rfl
  | cons c cs ih =>
    have hcs : ∀ d ∈ cs, d = '0' ∨ d = '1' := fun d hd => htext d (List.mem_cons_of_mem _ hd)
    rcases htext c List.mem_cons_self with rfl | rfl
    · simp [binaryValue, ih hcs]
    · simp [binaryValue, ih hcs]

theorem binaryValue_zero_of_bits (htext : ∀ c ∈ text, c = '0' ∨ c = '1') : binaryValue 0 text = some (base2Value text) :=
  binaryValue_of_bits htext 0

theorem binaryValue_of_not_bit {c : Char} (hc : c ∈ text) (h0 : c ≠ '0') (h1 : c ≠ '1') (acc : Nat) :
    binaryValue acc text = none := by
  induction text generalizing acc with
  | nil => exact absurd hc List.not_mem_nil
  | cons d ds ih =>
    rcases List.mem_cons.1 hc with rfl | hc
    · simp [binaryValue, h0, h1]
    · simp [binaryValue, ih hc]

/-! ## Lines -/

variable {line : List Char}

theorem parseLine_of_blank (hline : lineContent line = []) : parseLine line = .skipped := by
  simp only [parseLine, hline]

theorem parseLine_of_bits (hline : lineContent line = text) (hne : text ≠ []) (htext : ∀ c ∈ text, c = '0' ∨ c = '1') :
    parseLine line = if base2Value text ≤ 255 then .byte (BitVec.ofNat 8 (base2Value text)) else .malformed := by
  obtain ⟨c, cs, rfl⟩ := List.exists_cons_of_ne_nil hne
  simp only [parseLine, hline, binaryValue_zero_of_bits htext]

theorem parseLine_of_not_bit (hline : lineContent line = text) {c : Char} (hc : c ∈ text) (h0 : c ≠ '0') (h1 : c ≠ '1') :
    parseLine line = .malformed := by
  obtain ⟨d, ds, rfl⟩ := List.exists_cons_of_ne_nil (List.ne_nil_of_mem hc)
  simp only [parseLine, hline, binaryValue_of_not_bit hc h0 h1]

end

theorem parseLine_comment (comment : List Char) : parseLine ('#' :: comment) = .skipped :=
  parseLine_of_blank (by simp [lineContent])

/-! ## The eight digits of a byte -/

/-- A byte as eight binary digits, most significant first (R62). -/
def byteLiteral (b : Byte) : List Char := (List.range 8).map fun k => if b.getLsbD (7 - k) then '1' else '0'

theorem byteLiteral_bits (b : Byte) : ∀ c ∈ byteLiteral b, c = '0' ∨ c = '1' := by
  intro c hc
  obtain ⟨k, -, rfl⟩ := List.mem_map.1 hc
  split
  · exact .inr rfl
  · exact .inl rfl

theorem base2Value_byteLiteral (b : Byte) : base2Value (byteLiteral b) = b.toNat := by
  revert b; decide

theorem isContent_of_bits {text : List Char} (htext : ∀ c ∈ text, c = '0' ∨ c = '1') : isContent text := by
  have hbit {c : Char} (hc : c ∈ text) : isBlank c = false ∧ c ≠ '#' := by
    rcases htext c hc with rfl | rfl <;> decide
  exact ⟨fun c hc => (hbit (List.mem_of_head? hc)).1, fun c hc => (hbit (List.mem_of_getLast? hc)).1,
    fun c hc => (hbit hc).2⟩

/-- Eight binary digits, with blanks and a comment behind them, are their byte. -/
theorem parseLine_byteLiteral (b : Byte) {after tail : List Char} (hafter : ∀ c ∈ after, isBlank c = true)
    (htail : isTail tail) : parseLine (byteLiteral b ++ after ++ tail) = .byte b := by
  have hbits := byteLiteral_bits b
  have hcontent : lineContent (byteLiteral b ++ after ++ tail) = byteLiteral b :=
    lineContent_eq (before := []) (by simp) hafter (isContent_of_bits hbits) htail
  have hle : b.toNat ≤ 255 := Nat.le_of_lt_succ b.isLt
  rw [parseLine_of_bits hcontent (by simp [byteLiteral]) hbits, base2Value_byteLiteral, if_pos hle, BitVec.ofNat_toNat,
    BitVec.setWidth_eq]

/-! ## Images -/

theorem parseImage_of_wellFormed {lines : List (List Char)} (h : ∀ line ∈ lines, parseLine line ≠ .malformed) :
    parseImage lines = some (lines.flatMap fun line => (parseLine line).bytes) := by
  induction lines with
  | nil => rfl
  | cons line lines ih =>
    have ih := ih fun l hl => h l (List.mem_cons_of_mem _ hl)
    cases hline : parseLine line with
    | skipped => simp [parseImage, hline, ih, ImageLine.bytes]
    | byte v => simp [parseImage, hline, ih, ImageLine.bytes]
    | malformed => exact absurd hline (h line List.mem_cons_self)

theorem parseImage_of_malformed {before after : List (List Char)} {line : List Char} (h : parseLine line = .malformed) :
    parseImage (before ++ line :: after) = none := by
  induction before with
  | nil => simp [parseImage, h]
  | cons l before ih =>
    cases hl : parseLine l with
    | skipped => simp [parseImage, hl, ih]
    | byte v => simp [parseImage, hl, ih]
    | malformed => simp [parseImage, hl]

/-- Settles O3: a line is its content, a content is its digits, and an image is its lines. -/
theorem imageLinesGiveTheirBytes : Obligations.ImageLinesGiveTheirBytes := by
  refine ⟨fun b comment => ?_, parseLine_comment, rfl, fun before content after tail hbefore hafter hcontent htail => ?_,
    fun _ => rfl, fun p lines h => ?_, fun p before after line h => ?_⟩
  · have hcomment : isTail ('#' :: comment) := .inr ⟨comment, rfl⟩
    have halone := parseLine_byteLiteral b (after := []) (by simp) (.inl rfl)
    have hright := parseLine_byteLiteral b (after := []) (by simp) hcomment
    have hblank := parseLine_byteLiteral b (after := [' ']) (by simp [isBlank]) hcomment
    simp only [List.append_nil] at halone hright
    rw [List.append_assoc] at hblank
    exact ⟨halone, hright, hblank⟩
  · have hline := lineContent_eq hbefore hafter hcontent htail
    refine ⟨fun hnil => parseLine_of_blank (hline.trans hnil), fun hne hbits hle => ?_, fun hne hbits hlt => ?_,
      fun c hc => parseLine_of_not_bit hline hc⟩
    · rw [parseLine_of_bits hline hne hbits, if_pos hle]
    · rw [parseLine_of_bits hline hne hbits, if_neg (Nat.not_le.2 hlt)]
  · simp only [launchImage, parseImage_of_wellFormed h]
  · simp only [launchImage, parseImage_of_malformed h]

end Sys2Proof.Machine

/-! Which instructions act as the ALU does (40_run_loop.md R75; 42_alu.md R90 to R93). Two states tell a call of the ALU from
LDI: in one every register holds 0, in the other 1. -/

namespace Sys2Proof.Machine

/-- A RUNNING machine whose registers all hold `v`. -/
def uniformRegs (v : Byte) : State := { State.reset with regs := Vector.replicate 8 v }

theorem uniformRegs_getElem (v : Byte) (k : Nat) (hk : k < 8) : (uniformRegs v).regs[k] = v := Vector.getElem_replicate _

/-- How an instruction ends that hands `op` and two operands to the ALU and then moves the PC by `n`. -/
def actAsAlu (op : OpId) (a b : Byte) (n : Nat) (s : State) : Host.Outcome State Fault Refusal :=
  commit s ((aluApply op a b s).map (advance n))

theorem exec_mul_eq_actAsAlu (a b : Byte) (s : State) : exec (.mul a b) s = actAsAlu (.decoded .mul) a b 3 s := by
  change execMul a b s = _
  unfold execMul actAsAlu
  cases aluApply (.decoded .mul) a b s <;> rfl

section
variable {op : OpId} {a b : Byte} {n : Nat} {s : State}

/-- A call of the ALU faults, or writes its result to `x[a]`. -/
theorem actAsAlu_cases (op : OpId) (a b : Byte) (n : Nat) (s : State) :
    (∃ c, actAsAlu op a b n s = .next (raise c s)) ∨
    (∃ (ha : a.toNat < 8) (hb : b.toNat < 8) (v : Byte), aluResult op s.regs[a.toNat] s.regs[b.toNat] = .ok v ∧
      actAsAlu op a b n s = .next (advance n { s with regs := s.regs.set a.toNat v })) := by
  by_cases ha : a.toNat < 8
  · by_cases hb : b.toNat < 8
    · rcases hv : aluResult op s.regs[a.toNat] s.regs[b.toNat] with c | v
      · exact .inl ⟨c, by rw [actAsAlu, aluApply_valid op s ha hb, hv]; rfl⟩
      · exact .inr ⟨ha, hb, v, hv, by rw [actAsAlu, aluApply_of_result ha hb hv]; rfl⟩
    · exact .inl ⟨_, by rw [actAsAlu, aluApply_bad_b op s ha hb]; rfl⟩
  · exact .inl ⟨_, by rw [actAsAlu, aluApply_bad_a op b s ha]; rfl⟩

theorem actAsAdd_eq (ha : a.toNat < 8) (hb : b.toNat < 8) : actAsAlu .add a b n s = .next (advance n
    { s with regs := s.regs.set a.toNat (narrow (s.regs[a.toNat].toNat + s.regs[b.toNat].toNat)) }) := by
  rw [actAsAlu, aluApply_of_result ha hb rfl]
  rfl

/-- A call of the ALU that goes on has appended no event, halted nothing, and written a result. -/
theorem actAsAlu_frame {t : State} (h : actAsAlu op a b n s = .next t) (ht : t.run ≠ .faulted) :
    t.run = s.run ∧ t.events = s.events ∧ ∃ (ha : a.toNat < 8) (hb : b.toNat < 8) (v : Byte),
      aluResult op s.regs[a.toNat] s.regs[b.toNat] = .ok v ∧ t.regs = s.regs.set a.toNat v := by
  rcases actAsAlu_cases op a b n s with ⟨c, hc⟩ | ⟨ha, hb, v, hv, hok⟩
  · rw [hc] at h
    cases h
    exact absurd rfl ht
  · rw [hok] at h
    cases h
    exact ⟨rfl, rfl, ha, hb, v, hv, rfl⟩

/-- The ALU has two operations. -/
theorem aluResult_ok {va vb v : Byte} (h : aluResult op va vb = .ok v) :
    (op = .add ∧ v = narrow (va.toNat + vb.toNat)) ∨ (op = .decoded .mul ∧ v = narrow (va.toNat * vb.toNat)) := by
  by_cases hadd : op = .add
  · subst hadd
    exact .inl ⟨rfl, (Except.ok.inj h).symm⟩
  by_cases hmul : op = .decoded .mul
  · subst hmul
    exact .inr ⟨rfl, (Except.ok.inj h).symm⟩
  · rw [aluResult_unsupported hadd hmul] at h
    cases h

/-- From registers that all hold 0 every register of the next state holds 0. -/
theorem actAsAlu_uniform_zero {t : State} (h : actAsAlu op a b n (uniformRegs 0) = .next t) (ht : t.run ≠ .faulted) (k : Nat)
    (hk : k < 8) : t.regs[k] = 0 := by
  obtain ⟨-, -, ha, hb, v, hv, hregs⟩ := actAsAlu_frame h ht
  rw [uniformRegs_getElem, uniformRegs_getElem] at hv
  have hzero : v = 0 := by
    rcases aluResult_ok hv with ⟨-, rfl⟩ | ⟨-, rfl⟩ <;> decide
  simp only [hregs, hzero, Vector.getElem_set, uniformRegs_getElem, ite_self]

/-- From registers that all hold 1 no register of the next state holds 0. -/
theorem actAsAlu_uniform_one {t : State} (h : actAsAlu op a b n (uniformRegs 1) = .next t) (ht : t.run ≠ .faulted) (k : Nat)
    (hk : k < 8) : t.regs[k] ≠ 0 := by
  obtain ⟨-, -, ha, hb, v, hv, hregs⟩ := actAsAlu_frame h ht
  rw [uniformRegs_getElem, uniformRegs_getElem] at hv
  have hne : v ≠ 0 := by
    rcases aluResult_ok hv with ⟨-, rfl⟩ | ⟨-, rfl⟩ <;> decide
  simp only [hregs, Vector.getElem_set, uniformRegs_getElem]
  split
  · exact hne
  · decide

end

/-- No well-formed instruction but MUL acts as a call of the ALU from every RUNNING state. -/
theorem exists_exec_ne_actAsAlu {i : Instr} (hwf : i.wellFormed = true) (hmul : i.operation ≠ .mul) (op : OpId) (a b : Byte)
    (n : Nat) : ∃ s : State, s.run = .running ∧ exec i s ≠ actAsAlu op a b n s := by
  by_contra hall
  have hacts {s : State} (hrun : s.run = .running) : exec i s = actAsAlu op a b n s :=
    not_not.1 fun hne => hall ⟨s, hrun, hne⟩
  cases i with
  | ldi r imm =>
    have hr : r.toNat < 8 := Nat.lt_succ_of_le (of_decide_eq_true hwf)
    have hexec (v : Byte) := (hacts (s := uniformRegs v) rfl).symm.trans (execLdi_valid imm (uniformRegs v) hr)
    have hzero := actAsAlu_uniform_zero (hexec 0) (by simp [uniformRegs, State.reset, State.resetWith]) r.toNat hr
    have hone := actAsAlu_uniform_one (hexec 1) (by simp [uniformRegs, State.reset, State.resetWith]) r.toNat hr
    simp only [advance_regs, Vector.getElem_set_self] at hzero hone
    exact hone hzero
  | prn r =>
    have hr : r.toNat < 8 := Nat.lt_succ_of_le (of_decide_eq_true hwf)
    have hexec := (hacts (s := State.reset) rfl).symm.trans (execPrn_valid State.reset hr)
    obtain ⟨-, hevents, -⟩ := actAsAlu_frame hexec (by simp [State.reset, State.resetWith])
    simp at hevents
  | mul a b => exact hmul rfl
  | hlt =>
    have hexec : actAsAlu op a b n State.reset = .next (halt State.reset) := (hacts rfl).symm
    obtain ⟨hrun, -⟩ := actAsAlu_frame hexec (by simp)
    simp [State.reset, State.resetWith] at hrun

/-- An ill-formed instruction faults where an ADD of two registers does not. -/
theorem exec_ne_actAsAdd_of_illFormed {i : Instr} (hwf : i.wellFormed = false) {a b : Byte} (ha : a.toNat < 8)
    (hb : b.toNat < 8) (n : Nat) : exec i State.reset ≠ actAsAlu .add a b n State.reset := by
  obtain ⟨t, ht, heff⟩ := exec_effect i State.reset
  have hfaulted : t.run = .faulted := (heff.faulted_iff rfl).2 hwf
  rw [ht, actAsAdd_eq ha hb]
  rintro h
  cases h
  cases hfaulted

/-- MUL and ADD of two registers differ where every register holds 1: the product is 1 and the sum 2. -/
theorem exec_mul_ne_actAsAdd {x y a b : Byte} (hwf : (Instr.mul x y).wellFormed = true) (ha : a.toNat < 8)
    (hb : b.toNat < 8) (n : Nat) : exec (.mul x y) (uniformRegs 1) ≠ actAsAlu .add a b n (uniformRegs 1) := by
  have hxy : x.toNat ≤ 7 ∧ y.toNat ≤ 7 := by simpa [Instr.wellFormed, validIndex] using hwf
  have hmul := execMul_valid (uniformRegs 1) (Nat.lt_succ_of_le hxy.1) (Nat.lt_succ_of_le hxy.2)
  intro h
  rw [actAsAdd_eq ha hb] at h
  have hnext := Host.Outcome.next.inj (hmul.symm.trans h)
  have hreg := congrArg (fun t : State => t.regs[a.toNat]) hnext
  simp [Vector.getElem_set, uniformRegs_getElem, narrow] at hreg

/-- Settles O10: MUL alone is a call of the ALU, and an ADD differs from an ill-formed instruction by its fault, from MUL by
its result, and from the rest as every call of the ALU does. -/
theorem onlyMulReachesTheAlu : Obligations.OnlyMulReachesTheAlu := by
  have hrouted (i : Instr) : routedToAlu (.decoded i.operation) = true ↔ i.operation = .mul := by
    cases i <;> simp [Instr.operation, routedToAlu]
  refine ⟨exec_mul_eq_actAsAlu, fun i hwf => ⟨fun hi => ?_, fun ⟨op, a, b, n, hacts⟩ => ?_⟩, hrouted, rfl,
    fun i a b n ha hb => ?_⟩
  · cases i with
    | mul a b => exact ⟨_, a, b, 3, exec_mul_eq_actAsAlu a b⟩
    | ldi | prn | hlt => cases hi
  · by_contra hi
    obtain ⟨s, -, hne⟩ := exists_exec_ne_actAsAlu hwf (mt (hrouted i).2 hi) op a b n
    exact hne (hacts s)
  · replace ha : a.toNat < 8 := Nat.lt_succ_of_le ha
    replace hb : b.toNat < 8 := Nat.lt_succ_of_le hb
    cases hwf : i.wellFormed with
    | false => exact ⟨State.reset, rfl, exec_ne_actAsAdd_of_illFormed hwf ha hb n⟩
    | true =>
      by_cases hmul : i.operation = .mul
      · cases i with
        | mul x y => exact ⟨uniformRegs 1, rfl, exec_mul_ne_actAsAdd hwf ha hb n⟩
        | ldi | prn | hlt => cases hmul
      · exact exists_exec_ne_actAsAlu hwf hmul .add a b n

end Sys2Proof.Machine
